-- ==== Sys2Proof/Word.lean ====
section
/-! DEFINITION. The word types of the block (00_scope R6, R8): every register, cell, address and
instruction word is a 32-bit pattern. -/

namespace Sys2Proof

/-- A 32-bit pattern: the contents of a register or cell, an address, an instruction word (R6, R8). -/
abbrev Word := BitVec 32

/-- The 5-bit index of a general register (10_state R12). -/
abbrev RegIdx := BitVec 5

/-- The 12-bit rs2 field of the R-type format (30_encoding R41). -/
abbrev WideIdx := BitVec 12

/-- `u(v)`: the pattern read as an unsigned integer (R8). -/
abbrev Word.u (v : Word) : Nat := v.toNat

/-- `s(v)`: the pattern read as a two's-complement integer (R8). -/
abbrev Word.s (v : Word) : Int := v.toInt

end Sys2Proof
end

