-- ==== Sys2Proof/Config.lean ====
section
/-! DEFINITION. What the spec fixes once for the block (00_scope R6), the named parameters of
92_eei_decisions.md at the spec's default, and the one free value. -/

namespace Sys2Proof

/-- The choices of parameter `EA_HIGH` (92 D3, 93 U6). -/
inductive EaHigh where
  /-- The effective address is taken modulo 2^32: the spec's default (20_memory R29). -/
  | wrap
  /-- An effective address of 2^31 or more ends the step in FAULTED. -/
  | fault
deriving DecidableEq, Repr

/-- The choices of parameter `UNLISTED_FUNCT3` (92 D6, 93 U5). -/
inductive UnlistedFunct3 where
  /-- A listed opcode with an unlisted funct3 is a default no-op: the spec's default (30_encoding R50). -/
  | advance
  /-- Such a word ends the step in FAULTED. -/
  | fault
deriving DecidableEq, Repr

/-- `PC_STEP`, the sequential pc increment (R6). -/
def Config.pcStep : Word := 4#32

/-- `RESET_PC` (R6). -/
def Config.resetPc : Word := 0#32

/-- `EA_HIGH`, at the spec's default (92 D3; notes/assumptions/7.md). -/
def Config.eaHigh : EaHigh := .wrap

/-- `ENGINE_SUBTRACTS_BASE`, at the spec's default (92 D4; notes/assumptions/8.md). -/
def Config.engineSubtractsBase : Bool := false

/-- `UNLISTED_FUNCT3`, at the spec's default (92 D6; notes/assumptions/9.md). -/
def Config.unlistedFunct3 : UnlistedFunct3 := .advance

/-- FREE VALUE: the write cursor after the host writes one entry at a store address, given the cursor
before. No source defines the cursor (93 U11: "any value"), so nothing constrains it
(notes/assumptions/15.md). -/
opaque Config.cursorAfterLoad : Word → Word → Word

end Sys2Proof
end

