-- ==== Sys2Proof/Syntax.lean ====
section
/-! DEFINITION. Instructions as data: one constructor per row of spec/opcode_table.json, the twelve
cases of the opcode map (30_encoding R49), the decoder's class output (R48), the formats (R40) and the
DecodeRecord (10_state R17). -/

namespace Sys2Proof

/-- The twelve cases of the opcode map (30_encoding R49). -/
inductive Case where
  | halt | jal | addi | slli | ori | xor | lw | sw | lui | auipc | beq | bne
deriving DecidableEq, Repr

/-- The decoder's per-step output (30_encoding R48). -/
inductive DecodeClass where
  /-- `IMPL(name)`: the word selects one of the twelve cases. -/
  | impl (c : Case)
  /-- `UNIMPL`: the word falls to the default case. -/
  | unimpl
deriving DecidableEq, Repr

/-- The formats of rule R40, selected by the opcode alone. -/
inductive Format where
  | system | rType | uType | iType | jType | sType | bType
  /-- Any opcode not in rule R40's table. -/
  | unlisted
deriving DecidableEq, Repr

/-- An instruction with the fields of its word. Immediates are the encoded fields, not yet extended;
bits the spec calls don't-cares are kept, so that no bit of a word is lost (notes/assumptions/20.md). -/
inductive Instr where
  /-- HALT: any opcode-115 word; `raw[31:7]` is a don't-care (44_system R75). -/
  | halt (dontCare : BitVec 25)
  /-- JAL: `off` is `offset[20:1]`; `rd` is encoded but ignored (43_control R71). -/
  | jal (rd : RegIdx) (off : BitVec 20)
  /-- ADDI (41_alu R62). -/
  | addi (rd rs1 : RegIdx) (imm : BitVec 12)
  /-- SLLI: the shift amount is the low 5 bits of the I-type immediate (41_alu R63). -/
  | slli (rd rs1 : RegIdx) (imm : BitVec 12)
  /-- ORI (41_alu R64). -/
  | ori (rd rs1 : RegIdx) (imm : BitVec 12)
  /-- XOR: `rs2` is the 12-bit field `raw[31:20]` (30_encoding R41, 41_alu R65). -/
  | xor (rd rs1 : RegIdx) (rs2 : WideIdx)
  /-- LW (42_load_store R69). -/
  | lw (rd rs1 : RegIdx) (imm : BitVec 12)
  /-- SW: `rs2` is the data, `rs1` the base (42_load_store R70). -/
  | sw (rs2 rs1 : RegIdx) (imm : BitVec 12)
  /-- LUI (41_alu R66). -/
  | lui (rd : RegIdx) (imm : BitVec 20)
  /-- AUIPC (41_alu R67). -/
  | auipc (rd : RegIdx) (imm : BitVec 20)
  /-- BEQ: `off` is `offset[12:1]` (43_control R73). -/
  | beq (rs1 rs2 : RegIdx) (off : BitVec 12)
  /-- BNE: `off` is `offset[12:1]` (43_control R74). -/
  | bne (rs1 rs2 : RegIdx) (off : BitVec 12)
  /-- The default case: a word that matches no row of the opcode map (40_fetch_cycle R58). -/
  | defaultNoop (raw : Word)
deriving DecidableEq, Repr

/-- The case of the opcode map an instruction stands for; none for the default case (R49). -/
def Instr.case? : Instr → Option Case
  | .halt _ => some .halt
  | .jal _ _ => some .jal
  | .addi _ _ _ => some .addi
  | .slli _ _ _ => some .slli
  | .ori _ _ _ => some .ori
  | .xor _ _ _ => some .xor
  | .lw _ _ _ => some .lw
  | .sw _ _ _ => some .sw
  | .lui _ _ => some .lui
  | .auipc _ _ => some .auipc
  | .beq _ _ _ => some .beq
  | .bne _ _ _ => some .bne
  | .defaultNoop _ => none

/-- The record the decoder rebuilds every cycle (10_state R17). -/
structure DecodeRecord where
  raw    : Word
  opcode : BitVec 7
  funct3 : BitVec 3
  rs1    : RegIdx
  rs2    : WideIdx
  rd     : RegIdx
  imm    : Word
  halt   : Bool
deriving DecidableEq, Repr

/-- All fields 0 and halt false: the record at the start of every cycle (10_state R17). -/
def DecodeRecord.cleared : DecodeRecord :=
  { raw := 0#32, opcode := 0#7, funct3 := 0#3, rs1 := 0#5, rs2 := 0#12, rd := 0#5, imm := 0#32,
    halt := false }

end Sys2Proof
end

