-- ==== Sys2Proof/WellFormed.lean ====
section
/-! DEFINITION. The mask and match of every row of the opcode map (30_encoding R49) and the
well-formedness check of instructions. Field widths are carried by the types, so the one check left is
that a default no-op's word matches no row. -/

namespace Sys2Proof

/-- The `mask` column of rule R49's table. -/
def Case.mask : Case → Word
  | .halt | .jal | .lui | .auipc => 0x0000007F#32
  | .addi | .slli | .ori | .xor | .lw | .sw | .beq | .bne => 0x0000707F#32

/-- The `match` column of rule R49's table. -/
def Case.pattern : Case → Word
  | .halt  => 0x00000073#32
  | .jal   => 0x0000006F#32
  | .addi  => 0x00000013#32
  | .slli  => 0x00001013#32
  | .ori   => 0x00006013#32
  | .xor   => 0x00004033#32
  | .lw    => 0x00002003#32
  | .sw    => 0x00002023#32
  | .lui   => 0x00000037#32
  | .auipc => 0x00000017#32
  | .beq   => 0x00000063#32
  | .bne   => 0x00001063#32

/-- The twelve rows of the opcode map, in the table's order. -/
def Case.all : List Case :=
  [.halt, .jal, .addi, .slli, .ori, .xor, .lw, .sw, .lui, .auipc, .beq, .bne]

/-- "A word matches a row when `(raw & mask) == match`" (R49). -/
def Case.isMatch (c : Case) (raw : Word) : Bool := raw &&& c.mask == c.pattern

/-- A word that matches no row of the opcode map (R49, R58). -/
def isDefaultWord (raw : Word) : Bool := Case.all.all fun c => !c.isMatch raw

/-- An instruction term that some word stands for: a default no-op holds a word of no row (R58). -/
def Instr.wellFormed : Instr → Bool
  | .defaultNoop raw => isDefaultWord raw
  | .halt _ | .jal _ _ | .addi _ _ _ | .slli _ _ _ | .ori _ _ _ | .xor _ _ _ | .lw _ _ _
  | .sw _ _ _ | .lui _ _ | .auipc _ _ | .beq _ _ _ | .bne _ _ _ => true

end Sys2Proof
end

