-- ==== Sys2Proof/Decode.lean ====
section
/-! DEFINITION. The instruction decoder (30_encoding R40 to R52): a pure, total function of the fetched
word. No encoding is illegal (R51), so no word is rejected. After it, the encoder, written from the same
layout tables. -/

namespace Sys2Proof

/-! ## Extension of fields (00_scope R9) -/

/-- `sext_12(f)` (R9). -/
def sext12 (f : BitVec 12) : Word := f.signExtend 32

/-- `sext_20(f)` (R9). -/
def sext20 (f : BitVec 20) : Word := f.signExtend 32

/-- `zext_20(f)` (R9). -/
def zext20 (f : BitVec 20) : Word := f.setWidth 32

/-! ## Fields of a word (R40 to R46); `raw.extractLsb' lo n` is the n-bit field from bit lo up -/

/-- `raw[6:0]` (R40). -/
def opcodeOf (raw : Word) : BitVec 7 := raw.extractLsb' 0 7

/-- `raw[14:12]` (R41, R42; R45 and R46 by decision D8). -/
def funct3Of (raw : Word) : BitVec 3 := raw.extractLsb' 12 3

/-- `raw[11:7]` (R41, R42, R43). -/
def rdOf (raw : Word) : RegIdx := raw.extractLsb' 7 5

/-- `raw[19:15]` (R41, R42; R45 and R46 by decision D8). -/
def rs1Of (raw : Word) : RegIdx := raw.extractLsb' 15 5

/-- `raw[24:20]`, the rs2 of S-type and B-type (R45, R46; decision D8, parameter SB_FIELDS). -/
def rs2Of (raw : Word) : RegIdx := raw.extractLsb' 20 5

/-- `raw[31:20]`, the 12-bit rs2 of R-type (R41). -/
def wideRs2Of (raw : Word) : WideIdx := raw.extractLsb' 20 12

/-- `raw[31:20]`, the I-type immediate field (R42). -/
def iFieldOf (raw : Word) : BitVec 12 := raw.extractLsb' 20 12

/-- `raw[31:12]`, the U-type immediate field (R43). -/
def uFieldOf (raw : Word) : BitVec 20 := raw.extractLsb' 12 20

/-- `raw[31] ++ raw[19:12] ++ raw[20] ++ raw[30:21]`: `offset[20:1]` of J-type (R44). -/
def jFieldOf (raw : Word) : BitVec 20 :=
  raw.extractLsb' 31 1 ++ raw.extractLsb' 12 8 ++ raw.extractLsb' 20 1 ++ raw.extractLsb' 21 10

/-- `raw[31:25] ++ raw[11:7]`, the S-type immediate field (R45; parameter SB_FIELDS). -/
def sFieldOf (raw : Word) : BitVec 12 := raw.extractLsb' 25 7 ++ raw.extractLsb' 7 5

/-- `raw[31] ++ raw[7] ++ raw[30:25] ++ raw[11:8]`: `offset[12:1]` of B-type (R46, decision D9,
parameter SB_FIELDS). -/
def bFieldOf (raw : Word) : BitVec 12 :=
  raw.extractLsb' 31 1 ++ raw.extractLsb' 7 1 ++ raw.extractLsb' 25 6 ++ raw.extractLsb' 8 4

/-- `raw[31:7]`, the don't-care bits of a System word (R75). -/
def systemRestOf (raw : Word) : BitVec 25 := raw.extractLsb' 7 25

/-! ## The DecodeRecord (R40 to R47) -/

/-- The format, by the opcode alone (R40's table). -/
def formatOf (opcode : BitVec 7) : Format :=
  if opcode = 115#7 then .system
  else if opcode = 51#7 then .rType
  else if opcode = 55#7 then .uType
  else if opcode = 23#7 then .uType
  else if opcode = 3#7 then .iType
  else if opcode = 19#7 then .iType
  else if opcode = 111#7 then .jType
  else if opcode = 35#7 then .sType
  else if opcode = 99#7 then .bType
  else .unlisted

/-- The record with only `raw` and `opcode` filled: what every format starts from (R40, R47). -/
def bareRecord (raw : Word) : DecodeRecord :=
  { DecodeRecord.cleared with raw := raw, opcode := opcodeOf raw }

/-- The decoder's record for a word: the format's fields, every other field 0 (R40 to R47). -/
def decodeRecord (raw : Word) : DecodeRecord :=
  match formatOf (opcodeOf raw) with
  | .system => { bareRecord raw with halt := true }
  | .rType => { bareRecord raw with
      funct3 := funct3Of raw, rs1 := rs1Of raw, rs2 := wideRs2Of raw, rd := rdOf raw }
  | .uType => { bareRecord raw with imm := zext20 (uFieldOf raw), rd := rdOf raw }
  | .iType => { bareRecord raw with
      funct3 := funct3Of raw, rs1 := rs1Of raw, rd := rdOf raw, imm := sext12 (iFieldOf raw) }
  | .jType => { bareRecord raw with imm := sext20 (jFieldOf raw) <<< 1 }
  | .sType => { bareRecord raw with
      funct3 := funct3Of raw, rs1 := rs1Of raw, rs2 := (rs2Of raw).setWidth 12,
      imm := sext12 (sFieldOf raw) }
  | .bType => { bareRecord raw with
      funct3 := funct3Of raw, rs1 := rs1Of raw, rs2 := (rs2Of raw).setWidth 12,
      imm := sext12 (bFieldOf raw) }
  | .unlisted => bareRecord raw

/-! ## Selection of the case (R49, R50) -/

/-- Dispatch on opcode, and on funct3 for opcodes 19, 51, 3, 35 and 99; none is the default case
(R49, R50). -/
def select (raw : Word) : Option Case :=
  let op := opcodeOf raw
  let f3 := funct3Of raw
  if op = 115#7 then some .halt
  else if op = 111#7 then some .jal
  else if op = 19#7 then
    if f3 = 0#3 then some .addi
    else if f3 = 1#3 then some .slli
    else if f3 = 6#3 then some .ori
    else none
  else if op = 51#7 then if f3 = 4#3 then some .xor else none
  else if op = 3#7 then if f3 = 2#3 then some .lw else none
  else if op = 35#7 then if f3 = 2#3 then some .sw else none
  else if op = 55#7 then some .lui
  else if op = 23#7 then some .auipc
  else if op = 99#7 then
    if f3 = 0#3 then some .beq
    else if f3 = 1#3 then some .bne
    else none
  else none

/-- The decoder's class output (R48). -/
def classify (raw : Word) : DecodeClass :=
  match select raw with
  | some c => .impl c
  | none => .unimpl

/-- The instruction a word stands for (R40 to R50). -/
def decode (raw : Word) : Instr :=
  match select raw with
  | some .halt => .halt (systemRestOf raw)
  | some .jal => .jal (rdOf raw) (jFieldOf raw)
  | some .addi => .addi (rdOf raw) (rs1Of raw) (iFieldOf raw)
  | some .slli => .slli (rdOf raw) (rs1Of raw) (iFieldOf raw)
  | some .ori => .ori (rdOf raw) (rs1Of raw) (iFieldOf raw)
  | some .xor => .xor (rdOf raw) (rs1Of raw) (wideRs2Of raw)
  | some .lw => .lw (rdOf raw) (rs1Of raw) (iFieldOf raw)
  | some .sw => .sw (rs2Of raw) (rs1Of raw) (sFieldOf raw)
  | some .lui => .lui (rdOf raw) (uFieldOf raw)
  | some .auipc => .auipc (rdOf raw) (uFieldOf raw)
  | some .beq => .beq (rs1Of raw) (rs2Of raw) (bFieldOf raw)
  | some .bne => .bne (rs1Of raw) (rs2Of raw) (bFieldOf raw)
  | none => .defaultNoop raw

/-! ## The opcode table's words -/

/-- The 32-bit word of an instruction whose low `nbits` bits are those of `w` and whose other bits are
0. An instruction is one word in one cell, with no byte order (R27, R40). -/
def tableWord (nbits w : Nat) : Word := BitVec.ofNat 32 (w % 2 ^ nbits)

/-- The instruction the decoder reads from a table row's bits; none for a row longer than the fixed
32-bit instruction (R40, R52). -/
def decodeTableWord (nbits w : Nat) : Option Instr :=
  if nbits ≤ 32 then some (decode (tableWord nbits w)) else none

/-! ## The encoder, from the layout tables of R41 to R46; `++` puts its left side in the high bits -/

/-- The I-type word (R42). -/
def encodeI (opcode : BitVec 7) (funct3 : BitVec 3) (rd rs1 : RegIdx) (imm : BitVec 12) : Word :=
  imm ++ rs1 ++ funct3 ++ rd ++ opcode

/-- The R-type word, with the 12-bit rs2 field (R41). -/
def encodeR (opcode : BitVec 7) (funct3 : BitVec 3) (rd rs1 : RegIdx) (rs2 : WideIdx) : Word :=
  rs2 ++ rs1 ++ funct3 ++ rd ++ opcode

/-- The U-type word (R43). -/
def encodeU (opcode : BitVec 7) (rd : RegIdx) (imm : BitVec 20) : Word :=
  imm ++ rd ++ opcode

/-- The J-type word: offset[20], offset[10:1], offset[11], offset[19:12], rd, opcode; bit i of `off` is
offset bit i+1 (R44). -/
def encodeJ (opcode : BitVec 7) (rd : RegIdx) (off : BitVec 20) : Word :=
  off.extractLsb' 19 1 ++ off.extractLsb' 0 10 ++ off.extractLsb' 10 1 ++ off.extractLsb' 11 8
    ++ rd ++ opcode

/-- The S-type word: imm[11:5], rs2, rs1, funct3, imm[4:0], opcode (R45). -/
def encodeS (opcode : BitVec 7) (funct3 : BitVec 3) (rs2 rs1 : RegIdx) (imm : BitVec 12) : Word :=
  imm.extractLsb' 5 7 ++ rs2 ++ rs1 ++ funct3 ++ imm.extractLsb' 0 5 ++ opcode

/-- The B-type word: offset[12], offset[10:5], rs2, rs1, funct3, offset[4:1], offset[11], opcode; bit i
of `off` is offset bit i+1 (R46). -/
def encodeB (opcode : BitVec 7) (funct3 : BitVec 3) (rs1 rs2 : RegIdx) (off : BitVec 12) : Word :=
  off.extractLsb' 11 1 ++ off.extractLsb' 4 6 ++ rs2 ++ rs1 ++ funct3 ++ off.extractLsb' 0 4
    ++ off.extractLsb' 10 1 ++ opcode

/-- The word of a well-formed instruction (R41 to R49). -/
def encode : Instr → Word
  | .halt dontCare => dontCare ++ 115#7
  | .jal rd off => encodeJ 111#7 rd off
  | .addi rd rs1 imm => encodeI 19#7 0#3 rd rs1 imm
  | .slli rd rs1 imm => encodeI 19#7 1#3 rd rs1 imm
  | .ori rd rs1 imm => encodeI 19#7 6#3 rd rs1 imm
  | .xor rd rs1 rs2 => encodeR 51#7 4#3 rd rs1 rs2
  | .lw rd rs1 imm => encodeI 3#7 2#3 rd rs1 imm
  | .sw rs2 rs1 imm => encodeS 35#7 2#3 rs2 rs1 imm
  | .lui rd imm => encodeU 55#7 rd imm
  | .auipc rd imm => encodeU 23#7 rd imm
  | .beq rs1 rs2 off => encodeB 99#7 0#3 rs1 rs2 off
  | .bne rs1 rs2 off => encodeB 99#7 1#3 rs1 rs2 off
  | .defaultNoop raw => raw

end Sys2Proof
end

