-- ==== Sys2Proof/Machine/State.lean ====
section
/-! DEFINITION. The block's state (10_state, 20_memory R24, 70_reset R88) as plain data, the reasons a
step or a host operation can stop, and the state after reset. -/

namespace Sys2Proof.Machine

/-- The run state (10_state R18). -/
inductive RunState where
  /-- The block takes the per-cycle transition. -/
  | running
  /-- It has executed the System opcode; terminal. -/
  | halted
  /-- A step raised a spec fault; terminal. -/
  | faulted
deriving DecidableEq, Repr

/-- The reasons a fault record can hold. The first is the spec's only one (60_exceptions R80); the other
two stand for the non-default values of parameters EA_HIGH and UNLISTED_FUNCT3 (92 D3, D6), to which
the spec gives no reason name, and no step records them at the default (notes/assumptions/19.md). -/
inductive FaultReason where
  /-- A read of general register index 32 or more (10_state R16). -/
  | regIndexOutOfRange
  /-- An effective address of 2^31 or more, under `EA_HIGH = fault` only. -/
  | effectiveAddressHigh
  /-- A listed opcode with an unlisted funct3, under `UNLISTED_FUNCT3 = fault` only. -/
  | unlistedFunct3
deriving DecidableEq, Repr

/-- The fault record `(reason, pc, raw)` (60_exceptions R80). -/
structure FaultRecord where
  reason : FaultReason
  pc     : Word
  raw    : Word
deriving DecidableEq, Repr

/-- One listed cell of the store: its address as a number, and its 32-bit contents. A cell holds a whole
word and cells are independent, so the unit of memory is this and not a byte (20_memory R24, R27;
notes/assumptions/1.md). -/
abbrev MemCell := Nat × Word

/-- The AddressSpace (20_memory R24): the cells listed, every other cell reading 0 (R25). -/
structure Memory where
  cells : List MemCell
deriving DecidableEq, Repr

/-- Everything the spec gives the block. -/
structure State where
  /-- x0 to x31 (10_state R12); slot 0 is x0, which the accessors read as 0 (R13). -/
  regs        : Vector Word 32
  /-- The program counter (R15). -/
  pc          : Word
  /-- RUNNING, HALTED or FAULTED (R18). -/
  runState    : RunState
  /-- The per-cycle DecodeRecord (R17). -/
  dec         : DecodeRecord
  /-- The decoder's class output of the latest step; none before the first (30_encoding R48). -/
  decClass    : Option DecodeClass
  /-- The fault record (60_exceptions R80). -/
  faultRecord : Option FaultRecord
  /-- The store shared by code and data (20_memory R24). -/
  mem         : Memory
  /-- `BASE`, the image base offset of the latest preload (00_scope R6, 20_memory R33). -/
  base        : Word
  /-- The write cursor that the memory clear clears (20_memory R34). -/
  writeCursor : Word
deriving DecidableEq, Repr

/-- Why a step has no next state. Both are raised by `step` alone; a run ends here. -/
inductive Fault where
  /-- The run state is HALTED, which has no step (40_fetch_cycle R60, 44_system R76). Raised by `step`.
  Safe: the spec gives the block no transition here. -/
  | halted
  /-- The run state is FAULTED, which has no step (40_fetch_cycle R60). Raised by `step`. Safe: the spec
  gives the block no transition here. -/
  | faulted
deriving DecidableEq, Repr

/-- What is refused by name. -/
inductive Refusal where
  /-- An instruction with no meaning yet: raised by no arm, since every instruction has its meaning.
  Safe. -/
  | notModelled (mnemonic : String)
  /-- The host refuses an empty instruction mapping (93 U2). Raised by `loadInstructions`. Safe: no run
  starts. -/
  | emptyMapping
  /-- The host refuses an entry whose key or value is not a 32-bit number (93 U1, U13). Raised by
  `loadInstructions` and `loadData`. Safe: no run starts. -/
  | malformedMapping
  /-- The host refuses a data key below `BASE` (93 U12). Raised by `loadData`. Safe: no run starts. -/
  | dataBelowBase
deriving DecidableEq, Repr

/-- Right after reset: a memory clear, an offset reset and a run start (70_reset R88, R91; 20_memory R34;
notes/assumptions/14.md to 16.md). -/
def State.reset : State :=
  { regs := Vector.replicate 32 0#32
    pc := Config.resetPc
    runState := .running
    dec := DecodeRecord.cleared
    decClass := none
    faultRecord := none
    mem := { cells := [] }
    base := 0#32
    writeCursor := 0#32 }

end Sys2Proof.Machine
end

