-- ==== Sys2Proof/Machine/Ops.lean ====
section
/-! DEFINITION. The named operations over registers, memory and the run state. Every read and write of
the machine goes through these. -/

namespace Sys2Proof.Machine

/-! ## Memory (20_memory R24 to R27) -/

/-- What a cell that nothing has written reads as (R25). -/
def unwritten : Word := 0#32

/-- The contents of the cell at address `a` in a list of cells (R25). -/
def cellsGet : List MemCell → Nat → Word
  | [], _ => unwritten
  | c :: rest, a => if a = c.1 then c.2 else cellsGet rest a

/-- A cell put in front of a list, unless it reads as an unlisted cell does. -/
def cellsCons (a : Nat) (v : Word) (rest : List MemCell) : List MemCell :=
  if v = unwritten then rest else (a, v) :: rest

/-- The cell at address `a` set to `v`, no other cell changed, rising order kept (R26). -/
def cellsSet : List MemCell → Nat → Word → List MemCell
  | [], a, v => cellsCons a v []
  | c :: rest, a, v =>
    if a < c.1 then cellsCons a v (c :: rest)
    else if a = c.1 then cellsCons a v rest
    else c :: cellsSet rest a v

/-- `MemRead` on the store (R25). -/
def Memory.read (m : Memory) (a : Word) : Word := cellsGet m.cells a.toNat

/-- `MemWrite` on the store (R26). -/
def Memory.write (m : Memory) (a v : Word) : Memory := { cells := cellsSet m.cells a.toNat v }

/-- The canonical form: addresses strictly rising, each a 32-bit address, and no cell listed that reads
as an unlisted one does. -/
abbrev Memory.wf (m : Memory) : Prop :=
  m.cells.Pairwise (fun p q => p.1 < q.1) ∧ ∀ c ∈ m.cells, c.1 < 2 ^ 32 ∧ c.2 ≠ unwritten

/-- `MemRead(a, 32)` (R25): never fails, no side effect. -/
def State.memRead (s : State) (a : Word) : Word := s.mem.read a

/-- `MemWrite(a, 32, v)` (R26): never fails, one cell. -/
def State.memWrite (s : State) (a v : Word) : State := { s with mem := s.mem.write a v }

/-- The store index of an address the block forms: the address itself, with no offset subtracted
(R28; parameter ENGINE_SUBTRACTS_BASE, 92 D4). -/
def State.storeIndex (s : State) (a : Word) : Word :=
  if Config.engineSubtractsBase then a - s.base else a

/-! ## General registers (10_state R12, R13, R16) -/

/-- `x[i]` for a 5-bit index; x0 reads 0 (R13). -/
def State.readReg (s : State) (i : RegIdx) : Word :=
  if i = 0#5 then 0#32 else s.regs[i.toNat]

/-- `x[rd] <- v`; a write to x0 is discarded (R13). -/
def State.writeReg (s : State) (rd : RegIdx) (v : Word) : State :=
  if rd = 0#5 then s else { s with regs := s.regs.set rd.toNat v }

/-- `x[i]` for the 12-bit rs2 of R-type: no value at index 32 or more (R16, 30_encoding R41). -/
def State.readWide (s : State) (i : WideIdx) : Option Word :=
  if i.toNat < 32 then some (s.readReg (i.setWidth 5)) else none

/-! ## The program counter (10_state R15) -/

/-- `pc <- t`. -/
def State.setPc (s : State) (t : Word) : State := { s with pc := t }

/-- `pc <- pc + 4`, modulo 2^32 (R15). -/
def State.advancePc (s : State) : State := s.setPc (s.pc + Config.pcStep)

/-- A register result and the sequential pc: the writes of every instruction with an rd result, after all
its reads (40_fetch_cycle R57). -/
def State.commitReg (s : State) (rd : RegIdx) (v : Word) : State := (s.writeReg rd v).advancePc

/-! ## Ending a run -/

/-- `halt`: the run state becomes HALTED and nothing else changes (00_scope R10, 44_system R75). -/
def State.haltRun (s : State) : State := { s with runState := .halted }

/-- `raise Fault(reason)`: the run state becomes FAULTED and the record `(reason, pc, raw)` is kept; no
register, cell or pc changes (60_exceptions R80, R83). There is no return from it (R84, R87). -/
def State.raiseFault (s : State) (reason : FaultReason) : State :=
  { s with runState := .faulted
           faultRecord := some { reason := reason, pc := s.pc, raw := s.dec.raw } }

/-! ## The phases before execute (40_fetch_cycle R55) -/

/-- Phase 1, reset: the DecodeRecord is cleared (10_state R17). -/
def State.resetPhase (s : State) : State := { s with dec := DecodeRecord.cleared }

/-- Phase 2, fetch: the word in the cell the pc names (R56). -/
def State.fetchWord (s : State) : Word := s.memRead (s.storeIndex s.pc)

/-- Phase 3, decode: the DecodeRecord and the class output of the fetched word (R55, 30_encoding R48). -/
def State.decodePhase (s : State) (raw : Word) : State :=
  { s with dec := decodeRecord raw, decClass := some (classify raw) }

/-- The state the execute phase starts from: phases 1 to 3 done. -/
def State.beforeExecute (s : State) : State := s.resetPhase.decodePhase s.resetPhase.fetchWord

/-- The word placed where the next step fetches (the host's preload of that one cell, 20_memory R33) and
the run state RUNNING, without which there is no fetch (R60). -/
def State.placeWord (s : State) (raw : Word) : State :=
  { s.memWrite (s.storeIndex s.pc) raw with runState := .running }

end Sys2Proof.Machine
end

