-- ==== Sys2Proof/Machine/Operands.lean ====
section
/-! DEFINITION. The ALU's four result operations (41_alu R61) and every operand form of the instruction
set: immediates, shift amounts, branch and jump targets, effective addresses. -/

namespace Sys2Proof.Machine

/-! ## ALU results (R61) -/

/-- `ADD(a, b) = (a + b) mod 2^32`; also the adder of effective addresses and targets (R61). -/
def aluAdd (a b : Word) : Word := a + b

/-- `SLL(a, n) = (a << n) mod 2^32`, 0 ≤ n ≤ 31 (R61). -/
def aluSll (a : Word) (n : BitVec 5) : Word := a <<< n.toNat

/-- `OR(a, b)` (R61). -/
def aluOr (a b : Word) : Word := a ||| b

/-- `XOR(a, b)` (R61). -/
def aluXor (a b : Word) : Word := a ^^^ b

/-! ## Operand forms -/

/-- SLLI's amount: `sext_12(raw[31:20]) & 0x1F`, as 5 bits (41_alu R63). -/
def shiftAmount (imm : BitVec 12) : BitVec 5 := (sext12 imm &&& 0x1F#32).setWidth 5

/-- LUI's and AUIPC's operand: `zext_20(raw[31:12]) << 12` (R66, R67). -/
def upperImm (imm : BitVec 20) : Word := zext20 imm <<< 12

/-- JAL's byte offset: the 20-bit field, sign-extended and doubled by the decoder (30_encoding R44). -/
def jumpOffset (off : BitVec 20) : Word := sext20 off <<< 1

/-- The byte offset of a branch: the decoded 12-bit field times 2, doubled at execute (43_control R72). -/
def branchOffset (off : BitVec 12) : Word := sext12 off * 2#32

/-- JAL's target (43_control R71). -/
def State.jumpTarget (s : State) (off : BitVec 20) : Word := aluAdd s.pc (jumpOffset off)

/-- The target of a taken branch (43_control R72). -/
def State.branchTarget (s : State) (off : BitVec 12) : Word := aluAdd s.pc (branchOffset off)

/-- `ea = ADD(sext_12(field), x[rs1])`, modulo 2^32 (42_load_store R68, 20_memory R29). -/
def State.effectiveAddress (s : State) (rs1 : RegIdx) (imm : BitVec 12) : Word :=
  aluAdd (sext12 imm) (s.readReg rs1)

/-- Whether an effective address faults: never at the default `EA_HIGH = wrap` (R29; 92 D3). -/
def eaFaults (ea : Word) : Bool := Config.eaHigh == .fault && ea.msb

end Sys2Proof.Machine
end

