-- ==== Sys2Proof/Machine/Flags.lean ====
section
/-! DEFINITION. The block has no condition codes and no status flags, and no instruction sets one as a
side effect (10_state R19). What branches test is the ALU's one comparison (41_alu R61). -/

namespace Sys2Proof.Machine

/-- `EQ(a, b) = (a == b)` on 32-bit patterns (R61, 43_control R72). -/
def aluEq (a b : Word) : Bool := a == b

/-- A conditional branch: the branch target when taken, else `pc + 4` (43_control R72 to R74). -/
def State.branchIf (s : State) (taken : Bool) (off : BitVec 12) : State :=
  if taken then s.setPc (s.branchTarget off) else s.advancePc

end Sys2Proof.Machine
end

