-- ==== Sys2Proof/Machine/Alu.lean ====
section
/-! DEFINITION. The ALU instructions: ADDI, SLLI, ORI, XOR, LUI, AUIPC (41_alu R62 to R67). -/

namespace Sys2Proof.Machine

/-- ADDI (R62). -/
def execAddi (rd rs1 : RegIdx) (imm : BitVec 12) (s : State) : Host.Outcome State Fault Refusal :=
  .next (s.commitReg rd (aluAdd (s.readReg rs1) (sext12 imm)))

/-- SLLI (R63). -/
def execSlli (rd rs1 : RegIdx) (imm : BitVec 12) (s : State) : Host.Outcome State Fault Refusal :=
  .next (s.commitReg rd (aluSll (s.readReg rs1) (shiftAmount imm)))

/-- ORI (R64). -/
def execOri (rd rs1 : RegIdx) (imm : BitVec 12) (s : State) : Host.Outcome State Fault Refusal :=
  .next (s.commitReg rd (aluOr (s.readReg rs1) (sext12 imm)))

/-- XOR (R65): an rs2 of 32 or more raises `Fault(RegIndexOutOfRange)` before any write (R80, R82). -/
def execXor (rd rs1 : RegIdx) (rs2 : WideIdx) (s : State) : Host.Outcome State Fault Refusal :=
  match s.readWide rs2 with
  | none => .next (s.raiseFault .regIndexOutOfRange)
  | some b => .next (s.commitReg rd (aluXor (s.readReg rs1) b))

/-- LUI (R66). -/
def execLui (rd : RegIdx) (imm : BitVec 20) (s : State) : Host.Outcome State Fault Refusal :=
  .next (s.commitReg rd (upperImm imm))

/-- AUIPC (R67): the pc read is this instruction's own address. -/
def execAuipc (rd : RegIdx) (imm : BitVec 20) (s : State) : Host.Outcome State Fault Refusal :=
  .next (s.commitReg rd (aluAdd (upperImm imm) s.pc))

end Sys2Proof.Machine
end

