-- ==== Sys2Proof/Machine/Control.lean ====
section
/-! DEFINITION. Control transfer: JAL, BEQ, BNE (43_control R71 to R74). No delay slots, no link. -/

namespace Sys2Proof.Machine

/-- JAL (R71): no register is written, whatever the ignored rd field holds. -/
def execJal (_rd : RegIdx) (off : BitVec 20) (s : State) : Host.Outcome State Fault Refusal :=
  .next (s.setPc (s.jumpTarget off))

/-- BEQ (R73). -/
def execBeq (rs1 rs2 : RegIdx) (off : BitVec 12) (s : State) : Host.Outcome State Fault Refusal :=
  .next (s.branchIf (aluEq (s.readReg rs1) (s.readReg rs2)) off)

/-- BNE (R74). -/
def execBne (rs1 rs2 : RegIdx) (off : BitVec 12) (s : State) : Host.Outcome State Fault Refusal :=
  .next (s.branchIf (!aluEq (s.readReg rs1) (s.readReg rs2)) off)

end Sys2Proof.Machine
end

