-- ==== Sys2Proof/Machine/LoadStore.lean ====
section
/-! DEFINITION. The load/store unit: LW, SW (42_load_store R68 to R70). The fault branch belongs to the
non-default value of parameter EA_HIGH (92 D3). -/

namespace Sys2Proof.Machine

/-- LW (R69): the whole cell; with rd = 0 the value read is discarded. -/
def execLw (rd rs1 : RegIdx) (imm : BitVec 12) (s : State) : Host.Outcome State Fault Refusal :=
  if eaFaults (s.effectiveAddress rs1 imm) then .next (s.raiseFault .effectiveAddressHigh)
  else .next (s.commitReg rd (s.memRead (s.storeIndex (s.effectiveAddress rs1 imm))))

/-- SW (R70): the whole 32-bit value of rs2, to one cell. -/
def execSw (rs2 rs1 : RegIdx) (imm : BitVec 12) (s : State) : Host.Outcome State Fault Refusal :=
  if eaFaults (s.effectiveAddress rs1 imm) then .next (s.raiseFault .effectiveAddressHigh)
  else .next
    (s.memWrite (s.storeIndex (s.effectiveAddress rs1 imm)) (s.readReg rs2)).advancePc

end Sys2Proof.Machine
end

