-- ==== Sys2Proof/Machine/System.lean ====
section
/-! DEFINITION. The System opcode (44_system R75) and the default case (40_fetch_cycle R58). -/

namespace Sys2Proof.Machine

/-- HALT (R75): any opcode-115 word; the bits above the opcode have no effect. -/
def execHalt (_dontCare : BitVec 25) (s : State) : Host.Outcome State Fault Refusal :=
  .next s.haltRun

/-- The default case (R58): `pc <- pc + 4` and nothing else. The fault branch belongs to the non-default
value of parameter UNLISTED_FUNCT3, for listed opcodes only (30_encoding R50, 92 D6). -/
def execDefaultNoop (raw : Word) (s : State) : Host.Outcome State Fault Refusal :=
  if Config.unlistedFunct3 = .fault ∧ formatOf (opcodeOf raw) ≠ .unlisted then
    .next (s.raiseFault .unlistedFunct3)
  else .next s.advancePc

end Sys2Proof.Machine
end

