-- ==== Sys2Proof/Machine/Step.lean ====
section
/-! DEFINITION. The per-cycle transition (40_fetch_cycle R55): while RUNNING, one instruction per step. -/

namespace Sys2Proof.Machine

/-- One step. RUNNING takes the four phases (R55); HALTED and FAULTED have no step (R60). -/
def step (s : State) : Host.Outcome State Fault Refusal :=
  match s.runState with
  | .running => exec (decode s.fetchWord) s.beforeExecute
  | .halted => .fault .halted
  | .faulted => .fault .faulted

/-- The instruction whose low `nbits` bits are those of `w`, placed in the cell the next step fetches,
with the block RUNNING. It stands for the host's preload of that cell and its run start
(20_memory R33; notes/assumptions/17.md). -/
def State.withFetchWord (s : State) (nbits w : Nat) : State := s.placeWord (tableWord nbits w)

end Sys2Proof.Machine
end

