-- ==== Sys2Proof/Machine/Assembler.lean ====
section
/-! DEFINITION. The assembler's view: register names (10_state R14), operand ranges and meanings and the
written form of instructions (30_encoding R53), and pseudo-instructions (R54). None of it has an effect on
the block. Everything beyond the source's four examples is general knowledge the spec adopts
(notes/assumptions/26.md). -/

namespace Sys2Proof.Machine

/-! ## Register names (R14) -/

/-- The names of x0 to x31, in index order (R14). -/
def abiNames : List String :=
  ["zero", "ra", "sp", "gp", "tp", "t0", "t1", "t2", "s0", "s1", "a0", "a1", "a2", "a3", "a4", "a5"] ++
  ["a6", "a7", "s2", "s3", "s4", "s5", "s6", "s7", "s8", "s9", "s10", "s11", "t3", "t4", "t5", "t6"]

/-- The one name of a register (R14). -/
def regName (i : RegIdx) : String := abiNames.getD i.toNat ""

/-- The register a spelling names; `fp` is accepted for x8 (R14). -/
def regIndex? (name : String) : Option RegIdx :=
  if name = "fp" then some 8#5
  else (abiNames.findIdx? (· == name)).map (BitVec.ofNat 5)

/-! ## Operand ranges (R53): none where an operand is out of range -/

/-- A signed 12-bit immediate, -2048..2047. -/
def asmImm12? (v : Int) : Option (BitVec 12) :=
  if -2048 ≤ v ∧ v ≤ 2047 then some (BitVec.ofInt 12 v) else none

/-- A shift amount, 0..31. -/
def asmShamt? (v : Nat) : Option (BitVec 12) :=
  if v ≤ 31 then some (BitVec.ofNat 12 v) else none

/-- An unsigned 20-bit immediate, 0..0xFFFFF. -/
def asmImm20? (v : Nat) : Option (BitVec 20) :=
  if v ≤ 0xFFFFF then some (BitVec.ofNat 20 v) else none

/-- JAL's even byte offset, -2^20..2^20-2, as the field `offset[20:1]`. -/
def asmJumpOff? (v : Int) : Option (BitVec 20) :=
  if v % 2 = 0 ∧ -1048576 ≤ v ∧ v ≤ 1048574 then some (BitVec.ofInt 20 (v / 2)) else none

/-- A branch's even byte offset, -4096..4094, as the field `offset[12:1]`. -/
def asmBranchOff? (v : Int) : Option (BitVec 12) :=
  if v % 2 = 0 ∧ -4096 ≤ v ∧ v ≤ 4094 then some (BitVec.ofInt 12 (v / 2)) else none

/-! ## Statements of the assembler (R53, R54) -/

/-- What an assembly line says: the instructions of R53's table, with operands as written. -/
inductive AsmLine where
  | addi (rd rs1 : RegIdx) (imm : Int)
  | slli (rd rs1 : RegIdx) (shamt : Nat)
  | ori (rd rs1 : RegIdx) (imm : Int)
  | xor (rd rs1 rs2 : RegIdx)
  | lw (rd : RegIdx) (offset : Int) (rs1 : RegIdx)
  | sw (rs2 : RegIdx) (offset : Int) (rs1 : RegIdx)
  | lui (rd : RegIdx) (imm20 : Nat)
  | auipc (rd : RegIdx) (imm20 : Nat)
  | jal (rd : RegIdx) (offset : Int)
  /-- `jal offset`: rd = ra. -/
  | jalRa (offset : Int)
  | beq (rs1 rs2 : RegIdx) (offset : Int)
  | bne (rs1 rs2 : RegIdx) (offset : Int)
  | ecall
  | ebreak
deriving DecidableEq, Repr

/-- The instruction of an assembly line; none where an operand is out of range (R53). -/
def assemble? : AsmLine → Option Instr
  | .addi rd rs1 imm => (asmImm12? imm).map (.addi rd rs1)
  | .slli rd rs1 shamt => (asmShamt? shamt).map (.slli rd rs1)
  | .ori rd rs1 imm => (asmImm12? imm).map (.ori rd rs1)
  | .xor rd rs1 rs2 => some (.xor rd rs1 (rs2.setWidth 12))
  | .lw rd offset rs1 => (asmImm12? offset).map (.lw rd rs1)
  | .sw rs2 offset rs1 => (asmImm12? offset).map (.sw rs2 rs1)
  | .lui rd imm20 => (asmImm20? imm20).map (.lui rd)
  | .auipc rd imm20 => (asmImm20? imm20).map (.auipc rd)
  | .jal rd offset => (asmJumpOff? offset).map (.jal rd)
  | .jalRa offset => (asmJumpOff? offset).map (.jal 1#5)
  | .beq rs1 rs2 offset => (asmBranchOff? offset).map (.beq rs1 rs2)
  | .bne rs1 rs2 offset => (asmBranchOff? offset).map (.bne rs1 rs2)
  | .ecall => some (.halt 0x0#25)
  | .ebreak => some (.halt 0x2000#25)

/-- Three operands separated by commas. -/
def asmThree (name a b c : String) : String := name ++ " " ++ a ++ ", " ++ b ++ ", " ++ c

/-- The written form of an assembly line (R53). -/
def AsmLine.render : AsmLine → String
  | .addi rd rs1 imm => asmThree "addi" (regName rd) (regName rs1) (toString imm)
  | .slli rd rs1 shamt => asmThree "slli" (regName rd) (regName rs1) (toString shamt)
  | .ori rd rs1 imm => asmThree "ori" (regName rd) (regName rs1) (toString imm)
  | .xor rd rs1 rs2 => asmThree "xor" (regName rd) (regName rs1) (regName rs2)
  | .lw rd offset rs1 => "lw " ++ regName rd ++ ", " ++ toString offset ++ "(" ++ regName rs1 ++ ")"
  | .sw rs2 offset rs1 => "sw " ++ regName rs2 ++ ", " ++ toString offset ++ "(" ++ regName rs1 ++ ")"
  | .lui rd imm20 => "lui " ++ regName rd ++ ", " ++ toString imm20
  | .auipc rd imm20 => "auipc " ++ regName rd ++ ", " ++ toString imm20
  | .jal rd offset => "jal " ++ regName rd ++ ", " ++ toString offset
  | .jalRa offset => "jal " ++ toString offset
  | .beq rs1 rs2 offset => asmThree "beq" (regName rs1) (regName rs2) (toString offset)
  | .bne rs1 rs2 offset => asmThree "bne" (regName rs1) (regName rs2) (toString offset)
  | .ecall => "ecall"
  | .ebreak => "ebreak"

/-! ## Pseudo-instructions (R54) -/

/-- `lo = sext_12(imm[11:0])`, as the 12-bit field (R54). -/
def liLow (imm : Word) : BitVec 12 := imm.extractLsb' 0 12

/-- `hi = ((imm - lo) >> 12) & 0xFFFFF` (R54). -/
def liHigh (imm : Word) : BitVec 20 := (imm - sext12 (liLow imm)).extractLsb' 12 20

/-- The pseudo-instructions that expand only to instructions in scope (R54). -/
inductive Pseudo where
  | nop
  | mv (rd rs : RegIdx)
  | li (rd : RegIdx) (imm : Word)
  | j (off : BitVec 20)
  | beqz (rs : RegIdx) (off : BitVec 12)
  | bnez (rs : RegIdx) (off : BitVec 12)
  /-- `la rd, sym` placed at address `at_`. -/
  | la (rd : RegIdx) (sym at_ : Word)
deriving DecidableEq, Repr

/-- The expansion of a pseudo-instruction (R54). -/
def Pseudo.expand : Pseudo → List Instr
  | .nop => [.addi 0#5 0#5 0#12]
  | .mv rd rs => [.addi rd rs 0#12]
  | .li rd imm =>
    if -2048 ≤ imm.toInt ∧ imm.toInt ≤ 2047 then [.addi rd 0#5 (liLow imm)]
    else [.lui rd (liHigh imm), .addi rd rd (liLow imm)]
  | .j off => [.jal 0#5 off]
  | .beqz rs off => [.beq rs 0#5 off]
  | .bnez rs off => [.bne rs 0#5 off]
  | .la rd sym at_ => [.auipc rd (liHigh (sym - at_)), .addi rd rd (liLow (sym - at_))]

end Sys2Proof.Machine
end

