-- ==== Sys2Proof/Machine/HostOps.lean ====
section
/-! DEFINITION. What the host does before a run and reads after it: memory clear, offset reset, preload,
run start, boot, the pass signal and the run's result (20_memory R33, R34; 44_system R77; 70_reset R88
to R94). No step calls these, and the host acts only between runs (60_exceptions R81). -/

namespace Sys2Proof.Machine

/-! ## Before a run -/

/-- `reset()` of the AddressSpace: every cell reads 0 and the write cursor is cleared (R34). -/
def State.memClear (s : State) : State := { s with mem := { cells := [] }, writeCursor := 0#32 }

/-- `resetOffset()`: `BASE` becomes 0 (R34). -/
def State.resetOffset (s : State) : State := { s with base := 0#32 }

/-- One entry of a mapping as the loader reads it: absolute address and value, as numbers (R33). -/
abbrev Entry := Nat × Nat

/-- A key and a value that are 32-bit numbers (93 U1, U13). -/
def entryOk (e : Entry) : Bool := e.1 < 2 ^ 32 && e.2 < 2 ^ 32

/-- `MemWrite(u(A - BASE), 32, W)` for one entry `(A, W)`; the write cursor takes a free value
(R33, 93 U11). -/
def State.loadEntry (s : State) (e : Entry) : State :=
  { s.memWrite (BitVec.ofNat 32 e.1 - s.base) (BitVec.ofNat 32 e.2) with
    writeCursor := Config.cursorAfterLoad s.writeCursor (BitVec.ofNat 32 e.1 - s.base) }

/-- The entries in the mapping's order (R33). -/
def State.loadEntries (s : State) : List Entry → State
  | [] => s
  | e :: rest => (s.loadEntry e).loadEntries rest

/-- The lowest key of a mapping whose first key is `first` (R33: `BASE`). -/
def lowestKey (first : Nat) : List Entry → Nat
  | [] => first
  | e :: rest => lowestKey (min first e.1) rest

/-- `loadInstructions`: `BASE` is the lowest key, then every entry is written at key minus `BASE`
(R33; refusals by 92 D13). -/
def State.loadInstructions (s : State) (instrs : List Entry) :
    Host.Outcome State Fault Refusal :=
  match instrs with
  | [] => .refused .emptyMapping
  | e :: rest =>
    if (e :: rest).all entryOk then
      .next (State.loadEntries { s with base := BitVec.ofNat 32 (lowestKey e.1 rest) } (e :: rest))
    else .refused .malformedMapping

/-- `loadData`: every entry at key minus the existing `BASE` (R33; 90 C4; refusals by 92 D13, 93 U12). -/
def State.loadData (s : State) (data : List Entry) : Host.Outcome State Fault Refusal :=
  if data.all entryOk then
    if data.all (fun e => s.base.toNat ≤ e.1) then .next (s.loadEntries data)
    else .refused .dataBelowBase
  else .refused .malformedMapping

/-- Run start, the block's reset: memory, `BASE` and the write cursor are left as they are (R88). With
ENGINE_SUBTRACTS_BASE the pc would start at `BASE` (92 D4). -/
def State.runStart (s : State) : State :=
  { s with
    regs := Vector.replicate 32 0#32
    pc := if Config.engineSubtractsBase then s.base else Config.resetPc
    runState := .running
    dec := DecodeRecord.cleared
    decClass := none
    faultRecord := none }

/-- The boot order: memory clear, instructions, data, run start (70_reset R90). -/
def State.boot (s : State) (instrs data : List Entry) : Host.Outcome State Fault Refusal :=
  match s.memClear.loadInstructions instrs with
  | .next s1 =>
    match s1.loadData data with
    | .next s2 => .next s2.runStart
    | .fault f => .fault f
    | .refused r => .refused r
  | .fault f => .fault f
  | .refused r => .refused r

/-! ## After a run -/

/-- `pass = (x[10] == 1)`, an output valid only in HALTED (44_system R77). -/
def State.passOutput (s : State) : Option Bool :=
  match s.runState with
  | .halted => some (s.readReg 10#5 == 1#32)
  | .running | .faulted => none

/-- The ends of a run (70_reset R94). -/
inductive RunResult where
  /-- No end yet. -/
  | running
  /-- HALTED, with the pass signal. -/
  | halted (pass : Bool)
  /-- FAULTED, with the fault record and no pass value. -/
  | faulted (record : Option FaultRecord)
deriving DecidableEq, Repr

/-- What the host reads of how a run stands (R94). -/
def State.runResult (s : State) : RunResult :=
  match s.runState with
  | .running => .running
  | .halted => .halted (s.readReg 10#5 == 1#32)
  | .faulted => .faulted s.faultRecord

end Sys2Proof.Machine
end

