-- ==== Sys2Proof/Safety.lean ====
section
/-! DEFINITION. The terms the statements use: what a step leaves unchanged, the machine's invariant, and
what counts as a safe run. -/

namespace Sys2Proof.Machine

/-! ## Frames -/

/-- Every general register but `rd` reads as before. -/
def SameRegsBut (rd : RegIdx) (s t : State) : Prop := ∀ r : RegIdx, r ≠ rd → t.readReg r = s.readReg r

/-- Every general register reads as before. -/
def SameRegs (s t : State) : Prop := ∀ r : RegIdx, t.readReg r = s.readReg r

/-- Every cell of the store reads as before. -/
def SameMem (s t : State) : Prop := ∀ a : Word, t.memRead a = s.memRead a

/-- Run state and fault record are as before. -/
def SameRun (s t : State) : Prop := t.runState = s.runState ∧ t.faultRecord = s.faultRecord

/-- What no execute phase writes is as before: the decoder's record and class output, and the host's
`BASE` and write cursor. -/
def SameRest (s t : State) : Prop :=
  t.dec = s.dec ∧ t.decClass = s.decClass ∧ t.base = s.base ∧ t.writeCursor = s.writeCursor

/-- Register `rd` holds `v`, or reads 0 if it is x0 (10_state R13); all others read as before. -/
def RegResult (rd : RegIdx) (v : Word) (s t : State) : Prop :=
  (rd ≠ 0#5 → t.readReg rd = v) ∧ t.readReg 0#5 = 0#32 ∧ SameRegsBut rd s t

/-- An instruction that writes one register and goes on at `pc + 4`: all it does. -/
def WritesReg (rd : RegIdx) (v : Word) (s t : State) : Prop :=
  RegResult rd v s t ∧ t.pc = s.pc + 4#32 ∧ SameMem s t ∧ SameRun s t ∧ SameRest s t

/-- An instruction that writes the pc alone. -/
def WritesPc (target : Word) (s t : State) : Prop :=
  t.pc = target ∧ SameRegs s t ∧ SameMem s t ∧ SameRun s t ∧ SameRest s t

/-! ## The invariant -/

/-- Slot 0 of the register array holds 0 (10_state R13). -/
def ZeroSlot (s : State) : Prop := s.regs[0] = 0#32

/-- The DecodeRecord and the class output belong to one word: the decode of `dec.raw`, or, before the
first step, the cleared record and no output (10_state R17, 30_encoding R48). -/
def DecodeAgrees (s : State) : Prop :=
  s.dec = decodeRecord s.dec.raw ∧
    (s.decClass = some (classify s.dec.raw) ∨ s.decClass = none ∧ s.dec = DecodeRecord.cleared)

/-- HALTED exactly when the DecodeRecord's halt bit is set (10_state R17, R19). -/
def HaltAgrees (s : State) : Prop := s.runState = .halted ↔ s.dec.halt = true

/-- A fault record exactly in FAULTED; then it is (RegIndexOutOfRange, pc, raw) of an XOR word with
`raw[31:25]` not 0 (60_exceptions R80, R83). -/
def FaultAgrees (s : State) : Prop :=
  (s.runState = .faulted ↔ s.faultRecord.isSome = true) ∧
    ∀ r, s.faultRecord = some r →
      r = { reason := .regIndexOutOfRange, pc := s.pc, raw := s.dec.raw } ∧
        select s.dec.raw = some .xor ∧ s.dec.raw.extractLsb' 25 7 ≠ 0#7

/-- The machine's invariant. -/
structure StateInv (s : State) : Prop where
  zeroSlot     : ZeroSlot s
  memWf        : s.mem.wf
  decodeAgrees : DecodeAgrees s
  haltAgrees   : HaltAgrees s
  faultAgrees  : FaultAgrees s

/-! ## Safe runs -/

/-- A run is safe as long as no spec fault has been raised (60_exceptions R80). -/
def NotFaulted (s : State) : Prop := s.runState ≠ .faulted

/-- A word that no step faults on: not an XOR with `raw[31:25]` other than 0 (30_encoding R51). -/
def FaultFreeWord (raw : Word) : Prop := select raw = some .xor → raw.extractLsb' 25 7 = 0#7

end Sys2Proof.Machine
end

