-- ==== Sys2Proof/Certificates/Slice0/Obligations.lean ====
section
/-! DEFINITION. The statements for the provers. Rule-level statements give the spec's own expressions
(bit slices, sign extension, sums modulo 2^32), not the model's names for them. The frames (`WritesReg`,
`WritesPc`, `SameMem`, …) are those of Sys2Proof/Safety.lean. -/

open Sys2Proof Sys2Proof.Machine

namespace Sys2Proof.Claims

/-- The opcode map of 30_encoding R49, written out: case, mask, match. -/
def opcodeMap : List (Case × Word × Word) :=
  [(.halt, 0x0000007F#32, 0x00000073#32), (.jal, 0x0000007F#32, 0x0000006F#32),
   (.addi, 0x0000707F#32, 0x00000013#32), (.slli, 0x0000707F#32, 0x00001013#32),
   (.ori, 0x0000707F#32, 0x00006013#32), (.xor, 0x0000707F#32, 0x00004033#32),
   (.lw, 0x0000707F#32, 0x00002003#32), (.sw, 0x0000707F#32, 0x00002023#32),
   (.lui, 0x0000007F#32, 0x00000037#32), (.auipc, 0x0000007F#32, 0x00000017#32),
   (.beq, 0x0000707F#32, 0x00000063#32), (.bne, 0x0000707F#32, 0x00001063#32)]

/-- `raw[6:0]`. -/
abbrev op (raw : Word) : BitVec 7 := raw.extractLsb' 0 7
/-- `raw[14:12]`. -/
abbrev f3 (raw : Word) : BitVec 3 := raw.extractLsb' 12 3
/-- `raw[11:7]`. -/
abbrev rdF (raw : Word) : RegIdx := raw.extractLsb' 7 5
/-- `raw[19:15]`. -/
abbrev rs1F (raw : Word) : RegIdx := raw.extractLsb' 15 5
/-- `raw[24:20]`. -/
abbrev rs2F (raw : Word) : RegIdx := raw.extractLsb' 20 5
/-- `raw[31:20]`. -/
abbrev iF (raw : Word) : BitVec 12 := raw.extractLsb' 20 12
/-- `raw[31:12]`. -/
abbrev uF (raw : Word) : BitVec 20 := raw.extractLsb' 12 20
/-- `raw[31] ++ raw[19:12] ++ raw[20] ++ raw[30:21]`. -/
abbrev jF (raw : Word) : BitVec 20 :=
  raw.extractLsb' 31 1 ++ raw.extractLsb' 12 8 ++ raw.extractLsb' 20 1 ++ raw.extractLsb' 21 10
/-- `raw[31:25] ++ raw[11:7]`. -/
abbrev sF (raw : Word) : BitVec 12 := raw.extractLsb' 25 7 ++ raw.extractLsb' 7 5
/-- `raw[31] ++ raw[7] ++ raw[30:25] ++ raw[11:8]`. -/
abbrev bF (raw : Word) : BitVec 12 :=
  raw.extractLsb' 31 1 ++ raw.extractLsb' 7 1 ++ raw.extractLsb' 25 6 ++ raw.extractLsb' 8 4

/-- The cases that have a register result (41_alu R62 to R67, 42_load_store R69). -/
def hasResult (c : Option Case) : Prop :=
  c = some .addi ∨ c = some .slli ∨ c = some .ori ∨ c = some .xor ∨ c = some .lw ∨ c = some .lui ∨
    c = some .auipc

end Sys2Proof.Claims

open Sys2Proof.Claims

/-! ## Encoding and decoding -/

/-- Every well-formed instruction, with every operand at every value its fields admit, decodes from its
own word: no bit of an encoding is dropped (30_encoding R40 to R47). -/
def Obligations.DecodeOfEncode : Prop :=
  ∀ i : Instr, i.wellFormed = true → decode (encode i) = i

/-- Every 32-bit word has exactly one meaning: it decodes to a well-formed instruction whose word it is
(30_encoding R51). -/
def Obligations.EncodeOfDecode : Prop :=
  ∀ raw : Word, (decode raw).wellFormed = true ∧ encode (decode raw) = raw

/-- The decoder's dispatch on opcode and funct3 is the mask and match table of 30_encoding R49; no bit
outside the key selects; and no two rows match one word, which R49 tags "[derived: from the masks and
matches of this table, which differ pairwise on the bits their masks share]". -/
def Obligations.SelectIsTheOpcodeMap : Prop :=
  (∀ row ∈ opcodeMap, ∀ raw : Word, select raw = some row.1 ↔ raw &&& row.2.1 = row.2.2) ∧
  (∀ raw : Word, select raw = none ↔ ∀ row ∈ opcodeMap, raw &&& row.2.1 ≠ row.2.2) ∧
  (∀ p ∈ opcodeMap, ∀ q ∈ opcodeMap, ∀ raw : Word,
    raw &&& p.2.1 = p.2.2 → raw &&& q.2.1 = q.2.2 → p = q) ∧
  (∀ raw raw' : Word, op raw = op raw' →
    (f3 raw = f3 raw' ∨ op raw = 111#7 ∨ op raw = 55#7 ∨ op raw = 23#7 ∨ op raw = 115#7) →
    select raw = select raw')

/-- I-type fields (30_encoding R42): the 12-bit immediate is read as two's complement. -/
def Obligations.RecordOfIType : Prop :=
  ∀ raw : Word, (op raw = 3#7 ∨ op raw = 19#7) →
    decodeRecord raw =
      { raw := raw, opcode := op raw, funct3 := f3 raw, rs1 := rs1F raw, rs2 := 0#12,
        rd := rdF raw, imm := (iF raw).signExtend 32, halt := false } ∧
    (decodeRecord raw).imm.toInt = (iF raw).toInt ∧
    -2048 ≤ (decodeRecord raw).imm.toInt ∧ (decodeRecord raw).imm.toInt ≤ 2047 ∧
    (iF raw = 0x800#12 → (decodeRecord raw).imm.toInt = -2048) ∧
    (iF raw = 0x7FF#12 → (decodeRecord raw).imm.toInt = 2047)

/-- R-type fields (30_encoding R41, whose fault is stated apart): rs2 takes 12 bits, and is 32 or more
exactly when `raw[31:25]` is not 0. That rs2 takes 12 bits is decision D7's: "rs2 is extracted as 12 bits,
as the source says". -/
def Obligations.RecordOfRType : Prop :=
  ∀ raw : Word, op raw = 51#7 →
    decodeRecord raw =
      { raw := raw, opcode := op raw, funct3 := f3 raw, rs1 := rs1F raw, rs2 := iF raw,
        rd := rdF raw, imm := 0#32, halt := false } ∧
    (32 ≤ (decodeRecord raw).rs2.toNat ↔ raw.extractLsb' 25 7 ≠ 0#7) ∧
    (raw.extractLsb' 25 7 = 0#7 → (decodeRecord raw).rs2 = (rs2F raw).setWidth 12)

/-- U-type fields (30_encoding R43): the 20-bit field, not extended; shifted by 12 it is the field above
twelve zeros whether it is read signed or unsigned, which R43 tags "[derived: from 00_scope.md rule
R8]". -/
def Obligations.RecordOfUType : Prop :=
  ∀ raw : Word, (op raw = 55#7 ∨ op raw = 23#7) →
    decodeRecord raw =
      { raw := raw, opcode := op raw, funct3 := 0#3, rs1 := 0#5, rs2 := 0#12, rd := rdF raw,
        imm := (uF raw).setWidth 32, halt := false } ∧
    (decodeRecord raw).imm.toNat ≤ 0xFFFFF ∧
    (decodeRecord raw).imm <<< 12 = uF raw ++ 0#12 ∧
    ((uF raw).signExtend 32) <<< 12 = uF raw ++ 0#12

/-- J-type fields (30_encoding R44): the offset, even and from -1048576 to 1048574; rd is not extracted.
The spec marks the bits of the offset "[derived: from the list and the field widths]". -/
def Obligations.RecordOfJType : Prop :=
  ∀ raw : Word, op raw = 111#7 →
    decodeRecord raw =
      { raw := raw, opcode := op raw, funct3 := 0#3, rs1 := 0#5, rs2 := 0#12, rd := 0#5,
        imm := ((jF raw).signExtend 32) <<< 1, halt := false } ∧
    (decodeRecord raw).imm.toInt = 2 * (jF raw).toInt ∧
    -1048576 ≤ (decodeRecord raw).imm.toInt ∧ (decodeRecord raw).imm.toInt ≤ 1048574

/-- S-type fields (30_encoding R45). The positions of funct3, rs1 and rs2 are the spec's decision D8 (log
entry 10). -/
def Obligations.RecordOfSType : Prop :=
  ∀ raw : Word, op raw = 35#7 →
    decodeRecord raw =
      { raw := raw, opcode := op raw, funct3 := f3 raw, rs1 := rs1F raw,
        rs2 := (rs2F raw).setWidth 12, rd := 0#5, imm := (sF raw).signExtend 32, halt := false }

/-- B-type fields (30_encoding R46): the field is `offset[12:1]`, not doubled; the byte offset is even
and from -4096 to 4094. The layout is the spec's decisions D8 and D9 (log entry 10). -/
def Obligations.RecordOfBType : Prop :=
  ∀ raw : Word, op raw = 99#7 →
    decodeRecord raw =
      { raw := raw, opcode := op raw, funct3 := f3 raw, rs1 := rs1F raw,
        rs2 := (rs2F raw).setWidth 12, rd := 0#5, imm := (bF raw).signExtend 32, halt := false } ∧
    ((decodeRecord raw).imm * 2#32).toInt = 2 * (bF raw).toInt ∧
    -4096 ≤ ((decodeRecord raw).imm * 2#32).toInt ∧ ((decodeRecord raw).imm * 2#32).toInt ≤ 4094

/-- The System opcode extracts no field and sets halt; an unlisted opcode leaves every field but raw and
opcode at 0 (30_encoding R47). -/
def Obligations.RecordOfSystemAndUnlisted : Prop :=
  (∀ raw : Word, op raw = 115#7 →
    decodeRecord raw =
      { raw := raw, opcode := op raw, funct3 := 0#3, rs1 := 0#5, rs2 := 0#12, rd := 0#5,
        imm := 0#32, halt := true }) ∧
  (∀ raw : Word, op raw ∉ [115#7, 51#7, 55#7, 23#7, 3#7, 19#7, 111#7, 35#7, 99#7] →
    decodeRecord raw =
      { raw := raw, opcode := op raw, funct3 := 0#3, rs1 := 0#5, rs2 := 0#12, rd := 0#5,
        imm := 0#32, halt := false })

/-- Words of 95_test_vectors §2.1 and, for ORI, LW, AUIPC and BNE, of its §2.2 (E-ORI-1, E-LW-3,
E-AUIPC-1, E-BNE-3) decode to the instructions they are listed for. -/
def Obligations.SampleWordsDecode : Prop :=
  decode 0x00A50513#32 = .addi 10#5 10#5 10#12 ∧
  decode 0x40459593#32 = .slli 11#5 11#5 1028#12 ∧
  decode 0x0055E593#32 = .ori 11#5 11#5 5#12 ∧
  decode 0x40C5C6B3#32 = .xor 13#5 11#5 1036#12 ∧
  decode 0xFFC52503#32 = .lw 10#5 10#5 0xFFC#12 ∧
  decode 0xFEB52FA3#32 = .sw 11#5 10#5 0xFFF#12 ∧
  decode 0xFFFFF537#32 = .lui 10#5 0xFFFFF#20 ∧
  decode 0x00001497#32 = .auipc 9#5 1#20 ∧
  decode 0x00C000EF#32 = .jal 1#5 6#20 ∧
  decode 0xFEB50EE3#32 = .beq 10#5 11#5 0xFFE#12 ∧
  decode 0xFE029CE3#32 = .bne 5#5 0#5 0xFFC#12 ∧
  decode 0x00100073#32 = .halt 0x2000#25 ∧
  decode 0x00008067#32 = .defaultNoop 0x00008067#32

/-! ## What each instruction does -/

/-- HALT (44_system R75): any opcode-115 word; the run state becomes HALTED and nothing else of the state
changes. -/
def Obligations.HaltSetsHalted : Prop :=
  (∀ raw : Word, op raw = 115#7 → decode raw = .halt (raw.extractLsb' 7 25)) ∧
  (∀ (x : BitVec 25) (s : State), exec (.halt x) s = .next { s with runState := .halted })

/-- JAL (43_control R71): pc-relative, no register written whatever rd holds. -/
def Obligations.JalJumpsWithoutLink : Prop :=
  (∀ raw : Word, op raw = 111#7 → decode raw = .jal (rdF raw) (jF raw)) ∧
  (∀ (rd : RegIdx) (off : BitVec 20) (s : State), ∃ t, exec (.jal rd off) s = .next t ∧
    WritesPc (s.pc + ((off.signExtend 32) <<< 1)) s t)

/-- ADDI (41_alu R62). -/
def Obligations.AddiAddsImmediate : Prop :=
  (∀ raw : Word, op raw = 19#7 → f3 raw = 0#3 → decode raw = .addi (rdF raw) (rs1F raw) (iF raw)) ∧
  (∀ (rd rs1 : RegIdx) (imm : BitVec 12) (s : State), ∃ t, exec (.addi rd rs1 imm) s = .next t ∧
    WritesReg rd (s.readReg rs1 + imm.signExtend 32) s t)

/-- SLLI (41_alu R63): the amount is the immediate's low 5 bits, and the 7 bits above them are
ignored. -/
def Obligations.SlliShiftsLeft : Prop :=
  (∀ raw : Word, op raw = 19#7 → f3 raw = 1#3 →
    decode raw = .slli (rdF raw) (rs1F raw) (iF raw) ∧ (iF raw).toNat % 32 = (rs2F raw).toNat) ∧
  (∀ (rd rs1 : RegIdx) (imm : BitVec 12) (s : State), ∃ t, exec (.slli rd rs1 imm) s = .next t ∧
    WritesReg rd (s.readReg rs1 <<< (imm.toNat % 32)) s t)

/-- ORI (41_alu R64). -/
def Obligations.OriOrsImmediate : Prop :=
  (∀ raw : Word, op raw = 19#7 → f3 raw = 6#3 → decode raw = .ori (rdF raw) (rs1F raw) (iF raw)) ∧
  (∀ (rd rs1 : RegIdx) (imm : BitVec 12) (s : State), ∃ t, exec (.ori rd rs1 imm) s = .next t ∧
    WritesReg rd (s.readReg rs1 ||| imm.signExtend 32) s t)

/-- XOR (41_alu R65): the exclusive or below index 32; at 32 or more the fault, before any write, with
nothing else changed. The fault is the spec's decision D7: "the step raises `Fault(RegIndexOutOfRange)`
and writes nothing" (log entry 12). -/
def Obligations.XorOrFaults : Prop :=
  (∀ raw : Word, op raw = 51#7 → f3 raw = 4#3 →
    decode raw = .xor (rdF raw) (rs1F raw) (iF raw) ∧
    (32 ≤ (iF raw).toNat ↔ raw.extractLsb' 25 7 ≠ 0#7)) ∧
  (∀ (rd rs1 : RegIdx) (rs2 : WideIdx) (s : State), rs2.toNat < 32 →
    ∃ t, exec (.xor rd rs1 rs2) s = .next t ∧
      WritesReg rd (s.readReg rs1 ^^^ s.readReg (rs2.setWidth 5)) s t) ∧
  (∀ (rd rs1 : RegIdx) (rs2 : WideIdx) (s : State), 32 ≤ rs2.toNat →
    exec (.xor rd rs1 rs2) s =
      .next { s with
        runState := .faulted
        faultRecord := some { reason := .regIndexOutOfRange, pc := s.pc, raw := s.dec.raw } })

/-- LUI (41_alu R66): the field above twelve zeros. -/
def Obligations.LuiLoadsUpper : Prop :=
  (∀ raw : Word, op raw = 55#7 → decode raw = .lui (rdF raw) (uF raw)) ∧
  (∀ (rd : RegIdx) (imm : BitVec 20) (s : State), ∃ t, exec (.lui rd imm) s = .next t ∧
    WritesReg rd (imm ++ 0#12) s t)

/-- AUIPC (41_alu R67): the field above twelve zeros, plus the instruction's own address. -/
def Obligations.AuipcAddsPc : Prop :=
  (∀ raw : Word, op raw = 23#7 → decode raw = .auipc (rdF raw) (uF raw)) ∧
  (∀ (rd : RegIdx) (imm : BitVec 20) (s : State), ∃ t, exec (.auipc rd imm) s = .next t ∧
    WritesReg rd ((imm ++ 0#12) + s.pc) s t)

/-- LW (42_load_store R69): the whole cell at displacement plus base, the base read before rd is
written. -/
def Obligations.LwLoadsCell : Prop :=
  (∀ raw : Word, op raw = 3#7 → f3 raw = 2#3 → decode raw = .lw (rdF raw) (rs1F raw) (iF raw)) ∧
  (∀ (rd rs1 : RegIdx) (imm : BitVec 12) (s : State), ∃ t, exec (.lw rd rs1 imm) s = .next t ∧
    WritesReg rd (s.memRead (imm.signExtend 32 + s.readReg rs1)) s t)

/-- SW (42_load_store R70): the 32-bit value of rs2 to the one cell at the effective address; every other
cell, every register and the rest of the state as before. The value clause has the store's canonical form
as its premise, which every step keeps (StepKeepsInvariant). The position of the rs2 field is the spec's
decision D8 (log entry 10). That the write cursor, part of `SameRest`, is as before is the model's choice
(log entry 15; 93 U11 says "any value"). -/
def Obligations.SwStoresCell : Prop :=
  (∀ raw : Word, op raw = 35#7 → f3 raw = 2#3 → decode raw = .sw (rs2F raw) (rs1F raw) (sF raw)) ∧
  (∀ (rs2 rs1 : RegIdx) (imm : BitVec 12) (s : State),
    s.effectiveAddress rs1 imm = imm.signExtend 32 + s.readReg rs1 ∧
    ∃ t, exec (.sw rs2 rs1 imm) s = .next t ∧
      (s.mem.wf → t.memRead (s.effectiveAddress rs1 imm) = s.readReg rs2) ∧
      (∀ a : Word, a ≠ s.effectiveAddress rs1 imm → t.memRead a = s.memRead a) ∧
      t.pc = s.pc + 4#32 ∧ SameRegs s t ∧ SameRun s t ∧ SameRest s t)

/-- BEQ (43_control R73). The field positions are the spec's decisions D8 and D9 (log entry 10). -/
def Obligations.BeqBranchesIfEqual : Prop :=
  (∀ raw : Word, op raw = 99#7 → f3 raw = 0#3 → decode raw = .beq (rs1F raw) (rs2F raw) (bF raw)) ∧
  (∀ (rs1 rs2 : RegIdx) (off : BitVec 12) (s : State), ∃ t, exec (.beq rs1 rs2 off) s = .next t ∧
    WritesPc (if s.readReg rs1 = s.readReg rs2 then s.pc + off.signExtend 32 * 2#32
      else s.pc + 4#32) s t)

/-- BNE (43_control R74). The field positions are the spec's decisions D8 and D9 (log entry 10). -/
def Obligations.BneBranchesIfNotEqual : Prop :=
  (∀ raw : Word, op raw = 99#7 → f3 raw = 1#3 → decode raw = .bne (rs1F raw) (rs2F raw) (bF raw)) ∧
  (∀ (rs1 rs2 : RegIdx) (off : BitVec 12) (s : State), ∃ t, exec (.bne rs1 rs2 off) s = .next t ∧
    WritesPc (if s.readReg rs1 ≠ s.readReg rs2 then s.pc + off.signExtend 32 * 2#32
      else s.pc + 4#32) s t)

/-- The default case (40_fetch_cycle R58): every word of no row of the opcode map only advances the pc,
and is classified UNIMPL. -/
def Obligations.DefaultOnlyAdvances : Prop :=
  (∀ raw : Word, (∀ row ∈ opcodeMap, raw &&& row.2.1 ≠ row.2.2) →
    decode raw = .defaultNoop raw ∧ classify raw = .unimpl) ∧
  (∀ (raw : Word) (s : State), ∃ t, exec (.defaultNoop raw) s = .next t ∧
    WritesPc (s.pc + 4#32) s t)

/-! ## The step -/

/-- A RUNNING step fetches the cell the pc names, decodes it, keeps its DecodeRecord and class, and runs
the decoded instruction. -/
def Obligations.StepRunsDecoded : Prop :=
  ∀ (s : State) (i : Instr), s.runState = .running → decode (s.memRead s.pc) = i →
    i.wellFormed = true →
    step s = exec i { s with
      dec := decodeRecord (s.memRead s.pc), decClass := some (classify (s.memRead s.pc)) }

/-- HALTED and FAULTED have no step (40_fetch_cycle R60; that `step` says so by a fault is log entry
4). -/
def Obligations.TerminalStatesHaveNoStep : Prop :=
  ∀ s : State,
    (s.runState = .halted → step s = .fault .halted) ∧
    (s.runState = .faulted → step s = .fault .faulted) ∧
    (s.runState = .running → ∃ t, step s = .next t)

/-- The next pc and run state of every case (40_fetch_cycle R59, which the spec marks "[derived: from the
rules named]"). -/
def Obligations.NextPcTable : Prop :=
  ∀ s : State, s.runState = .running → ∃ t, step s = .next t ∧
    (let raw := s.memRead s.pc
     match select raw with
     | some .halt => t.pc = s.pc ∧ t.runState = .halted
     | some .jal => t.pc = s.pc + ((jF raw).signExtend 32) <<< 1 ∧ t.runState = .running
     | some .beq =>
       t.pc = (if s.readReg (rs1F raw) = s.readReg (rs2F raw) then
         s.pc + (bF raw).signExtend 32 * 2#32 else s.pc + 4#32) ∧ t.runState = .running
     | some .bne =>
       t.pc = (if s.readReg (rs1F raw) ≠ s.readReg (rs2F raw) then
         s.pc + (bF raw).signExtend 32 * 2#32 else s.pc + 4#32) ∧ t.runState = .running
     | some .xor =>
       if 32 ≤ (iF raw).toNat then t.pc = s.pc ∧ t.runState = .faulted
       else t.pc = s.pc + 4#32 ∧ t.runState = .running
     | some .addi | some .slli | some .ori | some .lw | some .sw | some .lui | some .auipc | none =>
       t.pc = s.pc + 4#32 ∧ t.runState = .running)

/-- A step has exactly one of three outcomes (00_scope R11): it goes on RUNNING, or it ends in HALTED or
FAULTED with every register, the pc and every cell as before. The record of the FAULTED outcome is
60_exceptions R80's, by the spec's decision D11: "This outcome is the spec's own; the source has no
equivalent" (log entry 12). -/
def Obligations.StepOutcomes : Prop :=
  ∀ s : State, s.runState = .running → ∃ t, step s = .next t ∧
    ((t.runState = .running ∧ t.faultRecord = s.faultRecord) ∨
     (t.runState = .halted ∧ t.regs = s.regs ∧ t.pc = s.pc ∧ t.mem = s.mem ∧
       t.faultRecord = s.faultRecord) ∨
     (t.runState = .faulted ∧ t.regs = s.regs ∧ t.pc = s.pc ∧ t.mem = s.mem ∧
       t.faultRecord = some { reason := .regIndexOutOfRange, pc := s.pc, raw := s.memRead s.pc }))

/-- The only exit to HALTED is opcode 115 (40_fetch_cycle R60), and every word of it takes that exit. -/
def Obligations.HaltedOnlyByOpcode115 : Prop :=
  ∀ s t : State, step s = .next t → (t.runState = .halted ↔ op (s.memRead s.pc) = 115#7)

/-- The spec fault (60_exceptions R80): raised exactly by an XOR whose 12-bit rs2 field is 32 or more; no
register, cell or pc changes; FAULTED is terminal; the record is (RegIndexOutOfRange, pc, raw); no pass
value. The outcome is the spec's decision D11: "This outcome is the spec's own; the source has no
equivalent". -/
def Obligations.FaultedOnlyByWideXor : Prop :=
  ∀ s t : State, step s = .next t →
    (t.runState = .faulted ↔
      op (s.memRead s.pc) = 51#7 ∧ f3 (s.memRead s.pc) = 4#3 ∧ 32 ≤ (iF (s.memRead s.pc)).toNat) ∧
    (t.runState = .faulted →
      SameRegs s t ∧ SameMem s t ∧ t.pc = s.pc ∧
      t.faultRecord = some { reason := .regIndexOutOfRange, pc := s.pc, raw := s.memRead s.pc } ∧
      (∀ u, step t ≠ .next u) ∧ t.passOutput = none)

/-- A run of any length that fetches no XOR word with `raw[31:25]` other than 0 is never FAULTED
(30_encoding R51, 60_exceptions R80). -/
def Obligations.RunWithoutWideXorNeverFaults : Prop :=
  ∀ (k : Nat) (s t : State), NotFaulted s →
    (∀ (j : Nat) (u : State), j < k → Sys2Proof.core.run j s = .next u →
      FaultFreeWord (u.memRead u.pc)) →
    Sys2Proof.core.run k s = .next t → NotFaulted t

/-- What a whole step leaves unchanged: at most the register its rd field names, and none for a case
without a result; memory but for SW, and then but for the one cell at its effective address (10_state
R22, 20_memory R26, R39); `BASE`, which the preload alone uses (20_memory R28); and the write cursor,
which for SW is the model's choice (log entry 15; 93 U11 says "any value"). -/
def Obligations.StepFrame : Prop :=
  ∀ s t : State, step s = .next t →
    SameRegsBut (rdF (s.memRead s.pc)) s t ∧
    (¬ hasResult (select (s.memRead s.pc)) → SameRegs s t) ∧
    (select (s.memRead s.pc) ≠ some .sw → SameMem s t) ∧
    (select (s.memRead s.pc) = some .sw → ∀ a : Word,
      a ≠ s.effectiveAddress (rs1F (s.memRead s.pc)) (sF (s.memRead s.pc)) →
        t.memRead a = s.memRead a) ∧
    t.base = s.base ∧ t.writeCursor = s.writeCursor

/-- Every step from a state of the invariant gives a state of the invariant: slot 0 holds 0, the store is
in canonical form, the DecodeRecord and class output belong to one word, HALTED goes with the halt bit,
and a fault record stands exactly in FAULTED, for an XOR word with `raw[31:25]` not 0. -/
def Obligations.StepKeepsInvariant : Prop :=
  ∀ s t : State, StateInv s → step s = .next t → StateInv t

/-- The invariant holds right after reset. -/
def Obligations.ResetHasInvariant : Prop := StateInv State.reset

/-- No step is refused, whatever the state and the word (30_encoding R51: no encoding is illegal). -/
def Obligations.NoStepRefused : Prop :=
  ∀ (s : State) (r : Refusal), step s ≠ .refused r

/-- Every step keeps the pc's alignment modulo 2: offsets are even and the sequential step is 4
(43_control R71, R72). -/
def Obligations.StepKeepsPcParity : Prop :=
  ∀ s t : State, step s = .next t → t.pc.toNat % 2 = s.pc.toNat % 2

/-- A step's next registers, pc and run state depend only on the registers, the pc, the fetched cell and,
for LW, the one cell it reads (20_memory R39, 10_state R17): two states that agree on these step alike,
whatever their other cells, DecodeRecord, class output, `BASE` and write cursor. -/
def Obligations.StepReadsOnlyItsOperands : Prop :=
  ∀ s s' t : State, step s = .next t → s'.runState = .running → SameRegs s s' → s'.pc = s.pc →
    s'.memRead s'.pc = s.memRead s.pc →
    (∀ rd rs1 imm, decode (s.memRead s.pc) = .lw rd rs1 imm →
      s'.memRead (s.effectiveAddress rs1 imm) = s.memRead (s.effectiveAddress rs1 imm)) →
    ∃ t', step s' = .next t' ∧ SameRegs t t' ∧ t'.pc = t.pc ∧ t'.runState = t.runState

/-- The class output has no architectural effect (30_encoding R48): an execute phase carries it along
and changes nothing else by it; and a step leaves the fetched word's class there (log entry 6). -/
def Obligations.ClassOutputHasNoEffect : Prop :=
  (∀ (i : Instr) (s t : State) (k : Option DecodeClass), exec i s = .next t →
    exec i { s with decClass := k } = .next { t with decClass := k }) ∧
  (∀ s t : State, step s = .next t →
    (∀ c, t.decClass = some (.impl c) ↔ select (s.memRead s.pc) = some c) ∧
    (t.decClass = some .unimpl ↔ select (s.memRead s.pc) = none))

/-- The DecodeRecord is rebuilt every cycle (10_state R17): what a step does never depends on the one
left by the step before. -/
def Obligations.DecodeRecordIsRebuilt : Prop :=
  ∀ (s t : State) (d : DecodeRecord), step s = .next t →
    step { s with dec := d } = .next t ∧ t.dec = decodeRecord (s.memRead s.pc)

/-- The host's word placement: the very next step runs the word's instruction. -/
def Obligations.PlacedWordRunsNext : Prop :=
  ∀ (s : State) (nbits w : Nat) (i : Instr), s.mem.wf → decodeTableWord nbits w = some i →
    step (s.withFetchWord nbits w) = exec i (s.withFetchWord nbits w).beforeExecute ∧
    (s.withFetchWord nbits w).fetchWord = tableWord nbits w

/-! ## Registers, arithmetic, memory -/

/-- x0 is hardwired to 0 (10_state R13): it reads 0 in every state, a write to it changes nothing, and
any other write is read back and touches no other register. -/
def Obligations.ZeroRegisterIsHardwired : Prop :=
  ∀ (s : State) (rd : RegIdx) (v : Word),
    s.readReg 0#5 = 0#32 ∧ s.writeReg 0#5 v = s ∧
    (rd ≠ 0#5 → (s.writeReg rd v).readReg rd = v) ∧
    (∀ r : RegIdx, r ≠ rd → (s.writeReg rd v).readReg r = s.readReg r)

/-- A register read has a value exactly for indices 0 to 31 (10_state R16; the spec's decision D7). -/
def Obligations.WideIndexHasNoRegister : Prop :=
  ∀ (s : State) (i : WideIdx),
    (∀ r : RegIdx, i = r.setWidth 12 → s.readWide i = some (s.readReg r)) ∧
    (32 ≤ i.toNat → s.readWide i = none)

/-- The ALU's operations (41_alu R61): sums and shifts modulo 2^32, bitwise or and exclusive or, and
equality of patterns. -/
def Obligations.AluIsModulo : Prop :=
  ∀ (a b : Word) (n : BitVec 5),
    (aluAdd a b).toNat = (a.toNat + b.toNat) % 2 ^ 32 ∧
    (aluSll a n).toNat = (a.toNat * 2 ^ n.toNat) % 2 ^ 32 ∧
    (aluOr a b).toNat = a.toNat ||| b.toNat ∧ (aluXor a b).toNat = a.toNat ^^^ b.toNat ∧
    (aluEq a b = true ↔ a = b)

/-- A store followed by a load of the same address gives the word stored (20_memory R26; 95 V5). -/
def Obligations.LoadAfterStore : Prop :=
  ∀ (s : State) (rs2 rs1 rd : RegIdx) (imm : BitVec 12), s.mem.wf →
    ∃ t u, exec (.sw rs2 rs1 imm) s = .next t ∧ exec (.lw rd rs1 imm) t = .next u ∧
      (rd ≠ 0#5 → u.readReg rd = s.readReg rs2) ∧ u.pc = s.pc + 8#32 ∧ SameRegsBut rd s u

/-- A fetch sees the store of the step before (20_memory R37): a step that stores to the cell at
`pc + 4` is followed by a step that runs the word it stored. -/
def Obligations.StoredWordIsFetchedNext : Prop :=
  ∀ (s : State) (rs2 rs1 : RegIdx) (imm : BitVec 12), s.runState = .running → s.mem.wf →
    decode (s.memRead s.pc) = .sw rs2 rs1 imm → s.effectiveAddress rs1 imm = s.pc + 4#32 →
    ∃ t, step s = .next t ∧ step t = exec (decode (s.readReg rs2)) t.beforeExecute

/-- Equal stores are equal data: two canonical lists that read alike at every address are one list. -/
def Obligations.CanonicalMemoryIsUnique : Prop :=
  ∀ m m' : Memory, m.wf → m'.wf → (∀ a : Word, m.read a = m'.read a) → m = m'

/-! ## Reset, boot and the end of a run -/

/-- Run start (70_reset R88). That the fault record is none is the row that R88 marks as decision D11; that
`BASE` is as before is the model's reading (log entry 21), since R88's row says only that the preload sets
it and `resetOffset()` sets it to 0. -/
def Obligations.RunStartValues : Prop :=
  ∀ s : State,
    (∀ r : RegIdx, s.runStart.readReg r = 0#32) ∧ s.runStart.pc = 0#32 ∧
    s.runStart.runState = .running ∧
    s.runStart.dec =
      { raw := 0#32, opcode := 0#7, funct3 := 0#3, rs1 := 0#5, rs2 := 0#12, rd := 0#5, imm := 0#32,
        halt := false } ∧
    s.runStart.faultRecord = none ∧ s.runStart.mem = s.mem ∧ s.runStart.base = s.base ∧
    s.resetOffset.base = 0#32

/-- From any earlier state, a memory clear, an offset reset and a run start give `State.reset`
(70_reset R91; the values of `BASE`, the write cursor and the class output there are the model's, log
entries 6, 14 and 15). -/
def Obligations.ResetFromAnyState : Prop :=
  ∀ s : State, s.memClear.resetOffset.runStart = State.reset

/-- After a memory clear every cell reads 0, and nothing a program holds in registers changes
(20_memory R34); that it keeps `BASE` is the model's reading (log entry 21). -/
def Obligations.MemClearZeroesEveryCell : Prop :=
  ∀ s : State, (∀ a : Word, s.memClear.memRead a = 0#32) ∧ s.memClear.mem.wf ∧
    s.memClear.regs = s.regs ∧ s.memClear.pc = s.pc ∧ s.memClear.runState = s.runState ∧
    s.memClear.base = s.base

/-- The boot order (20_memory R33, 70_reset R89, R90): after it, `BASE` is the lowest instruction key,
every entry's word stands at its key minus `BASE`, every other cell reads 0, and the run starts at store
address 0 with registers 0. -/
def Obligations.BootPlacesImage : Prop :=
  ∀ (s t : State) (instrs data : List Entry), s.boot instrs data = .next t →
    ((instrs ++ data).map Prod.fst).Nodup →
    (∃ e ∈ instrs, e.1 = t.base.toNat) ∧ (∀ e ∈ instrs ++ data, t.base.toNat ≤ e.1) ∧
    (∀ e ∈ instrs ++ data,
      t.memRead (BitVec.ofNat 32 e.1 - t.base) = BitVec.ofNat 32 e.2) ∧
    (∀ a : Word, (∀ e ∈ instrs ++ data, a ≠ BitVec.ofNat 32 e.1 - t.base) →
      t.memRead a = 0#32) ∧
    (∀ r : RegIdx, t.readReg r = 0#32) ∧ t.pc = 0#32 ∧ t.runState = .running

/-- When the host boots and when it refuses (92 D13; the order of the checks and the acceptance of an
empty data mapping are log entry 18). -/
def Obligations.BootCompletesOrRefuses : Prop :=
  ∀ (s : State) (instrs data : List Entry),
    (instrs = [] → s.boot instrs data = .refused .emptyMapping) ∧
    (instrs ≠ [] → (∃ e ∈ instrs ++ data, ¬ (e.1 < 2 ^ 32 ∧ e.2 < 2 ^ 32)) →
      s.boot instrs data = .refused .malformedMapping) ∧
    (instrs ≠ [] → (∀ e ∈ instrs ++ data, e.1 < 2 ^ 32 ∧ e.2 < 2 ^ 32) →
      (∃ d ∈ data, ∀ e ∈ instrs, d.1 < e.1) → s.boot instrs data = .refused .dataBelowBase) ∧
    (instrs ≠ [] → (∀ e ∈ instrs ++ data, e.1 < 2 ^ 32 ∧ e.2 < 2 ^ 32) →
      (∀ d ∈ data, ∃ e ∈ instrs, e.1 ≤ d.1) → ∃ t, s.boot instrs data = .next t)

/-- The pass signal (44_system R77): valid only in HALTED, and there exactly whether a0 holds 1. That it
is an output valid only in HALTED is the spec's decision D15, and that a0 is x10 its decision D12 (log
entry 11). -/
def Obligations.PassSignal : Prop :=
  ∀ s : State,
    (s.runState = .halted → s.passOutput = some (decide (s.readReg 10#5 = 1#32))) ∧
    (s.runState ≠ .halted → s.passOutput = none)

/-! ## The assembler's view -/

/-- The written operand of JAL, and of BEQ and BNE when taken, is the byte offset from the instruction's
own address (30_encoding R53; only BEQ's is the source's, the rest general knowledge, log entry 26). -/
def Obligations.WrittenOffsetIsTheByteOffset : Prop :=
  (∀ (rd : RegIdx) (v : Int) (s : State), v % 2 = 0 → -1048576 ≤ v → v ≤ 1048574 →
    ∃ i t, assemble? (.jal rd v) = some i ∧ exec i s = .next t ∧
      t.pc = s.pc + BitVec.ofInt 32 v) ∧
  (∀ (rs1 rs2 : RegIdx) (v : Int) (s : State), v % 2 = 0 → -4096 ≤ v → v ≤ 4094 →
    (s.readReg rs1 = s.readReg rs2 →
      ∃ i t, assemble? (.beq rs1 rs2 v) = some i ∧ exec i s = .next t ∧
        t.pc = s.pc + BitVec.ofInt 32 v) ∧
    (s.readReg rs1 ≠ s.readReg rs2 →
      ∃ i t, assemble? (.bne rs1 rs2 v) = some i ∧ exec i s = .next t ∧
        t.pc = s.pc + BitVec.ofInt 32 v))

/-- `li rd, imm`: either expansion leaves the constant in rd, for rd other than x0. The expansions are those
of 30_encoding R54, marked there "[from general knowledge, not in source]" (log entry 26). -/
def Obligations.LiLoadsConstant : Prop :=
  ∀ (rd : RegIdx) (imm : Word) (s : State), rd ≠ 0#5 →
    (-2048 ≤ imm.toInt → imm.toInt ≤ 2047 →
      ∃ i t, Pseudo.expand (.li rd imm) = [i] ∧ exec i s = .next t ∧ WritesReg rd imm s t) ∧
    (¬ (-2048 ≤ imm.toInt ∧ imm.toInt ≤ 2047) →
      ∃ i j t u, Pseudo.expand (.li rd imm) = [i, j] ∧ exec i s = .next t ∧ exec j t = .next u ∧
        u.readReg rd = imm ∧ SameRegsBut rd s u ∧ u.pc = s.pc + 8#32)

/-- `la rd, sym`: placed at the pc it runs at, its expansion leaves the address of the symbol in rd, for rd
other than x0. The expansion is that of 30_encoding R54, marked there "[from general knowledge, not in
source]"; that it takes the address of its own AUIPC is the model's reading (log entry 26). -/
def Obligations.LaLoadsAddress : Prop :=
  ∀ (rd : RegIdx) (sym : Word) (s : State), rd ≠ 0#5 →
    ∃ i j t u, Pseudo.expand (.la rd sym s.pc) = [i, j] ∧ exec i s = .next t ∧
      exec j t = .next u ∧ u.readReg rd = sym ∧ SameRegsBut rd s u ∧ u.pc = s.pc + 8#32
end

