-- ==== Sys2Proof/Laws/Decode.lean ====
section
/-! SUPPORT. Where each bit of an encoded word comes from (30_encoding R41 to R46), and what the field
extractions read from it. -/

namespace Sys2Proof

/-! ## Layouts: bit i of each format's word -/

theorem encodeI_bit (op : BitVec 7) (f3 : BitVec 3) (rd rs1 : RegIdx) (imm : BitVec 12) (i : Nat) :
    (encodeI op f3 rd rs1 imm).getLsbD i =
      if i < 7 then op.getLsbD i
      else if i < 12 then rd.getLsbD (i - 7)
      else if i < 15 then f3.getLsbD (i - 12)
      else if i < 20 then rs1.getLsbD (i - 15)
      else imm.getLsbD (i - 20) := by
  unfold encodeI
  show @BitVec.getLsbD (12 + 5 + 3 + 5 + 7) _ _ = _
  simp only [BitVec.getLsbD_append, Nat.sub_sub]
  repeat' split
  all_goals first | rfl | (exfalso; omega)

theorem encodeR_eq_encodeI : encodeR = encodeI := rfl

theorem encodeU_bit (op : BitVec 7) (rd : RegIdx) (imm : BitVec 20) (i : Nat) :
    (encodeU op rd imm).getLsbD i =
      if i < 7 then op.getLsbD i
      else if i < 12 then rd.getLsbD (i - 7)
      else imm.getLsbD (i - 12) := by
  unfold encodeU
  show @BitVec.getLsbD (20 + 5 + 7) _ _ = _
  simp only [BitVec.getLsbD_append, Nat.sub_sub]
  repeat' split
  all_goals first | rfl | (exfalso; omega)

theorem encodeJ_bit (op : BitVec 7) (rd : RegIdx) (off : BitVec 20) (i : Nat) (hi : i < 32) :
    (encodeJ op rd off).getLsbD i =
      if i < 7 then op.getLsbD i
      else if i < 12 then rd.getLsbD (i - 7)
      else if i < 20 then off.getLsbD (11 + (i - 12))
      else if i < 21 then off.getLsbD (10 + (i - 20))
      else if i < 31 then off.getLsbD (i - 21)
      else off.getLsbD (19 + (i - 31)) := by
  unfold encodeJ
  show @BitVec.getLsbD (1 + 10 + 1 + 8 + 5 + 7) _ _ = _
  simp only [BitVec.getLsbD_append, BitVec.getLsbD_extractLsb', Nat.sub_sub]
  repeat' split
  all_goals first | rfl | (exfalso; omega) | (simp <;> omega)

theorem encodeS_bit (op : BitVec 7) (f3 : BitVec 3) (rs2 rs1 : RegIdx) (imm : BitVec 12) (i : Nat)
    (hi : i < 32) :
    (encodeS op f3 rs2 rs1 imm).getLsbD i =
      if i < 7 then op.getLsbD i
      else if i < 12 then imm.getLsbD (i - 7)
      else if i < 15 then f3.getLsbD (i - 12)
      else if i < 20 then rs1.getLsbD (i - 15)
      else if i < 25 then rs2.getLsbD (i - 20)
      else imm.getLsbD (5 + (i - 25)) := by
  unfold encodeS
  show @BitVec.getLsbD (7 + 5 + 5 + 3 + 5 + 7) _ _ = _
  simp only [BitVec.getLsbD_append, BitVec.getLsbD_extractLsb', Nat.sub_sub]
  repeat' split
  all_goals first | rfl | (exfalso; omega) | (simp <;> omega)

theorem encodeB_bit (op : BitVec 7) (f3 : BitVec 3) (rs1 rs2 : RegIdx) (off : BitVec 12) (i : Nat)
    (hi : i < 32) :
    (encodeB op f3 rs1 rs2 off).getLsbD i =
      if i < 7 then op.getLsbD i
      else if i < 8 then off.getLsbD (10 + (i - 7))
      else if i < 12 then off.getLsbD (i - 8)
      else if i < 15 then f3.getLsbD (i - 12)
      else if i < 20 then rs1.getLsbD (i - 15)
      else if i < 25 then rs2.getLsbD (i - 20)
      else if i < 31 then off.getLsbD (4 + (i - 25))
      else off.getLsbD (11 + (i - 31)) := by
  unfold encodeB
  show @BitVec.getLsbD (1 + 6 + 5 + 5 + 3 + 4 + 1 + 7) _ _ = _
  simp only [BitVec.getLsbD_append, BitVec.getLsbD_extractLsb', Nat.sub_sub]
  repeat' split
  all_goals first | rfl | (exfalso; omega) | (simp <;> omega)

theorem encodeSystem_bit (x : BitVec 25) (i : Nat) :
    (encode (.halt x)).getLsbD i = if i < 7 then (115#7).getLsbD i else x.getLsbD (i - 7) := by
  show @BitVec.getLsbD (25 + 7) _ _ = _
  exact BitVec.getLsbD_append

/-! ## What the extractions read from an encoded word -/

/-- An n-bit field of a word is known from its bits. -/
theorem extractLsb'_eq_of_bits {n : Nat} {raw : Word} {lo : Nat} {f : BitVec n}
    (h : ∀ i, i < n → raw.getLsbD (lo + i) = f.getLsbD i) : raw.extractLsb' lo n = f := by
  refine BitVec.eq_of_getLsbD_eq fun i hi => ?_
  rw [BitVec.getLsbD_extractLsb', h i hi]
  simp [hi]

theorem opcodeOf_encodeI (op : BitVec 7) (f3 : BitVec 3) (rd rs1 : RegIdx) (imm : BitVec 12) :
    opcodeOf (encodeI op f3 rd rs1 imm) = op :=
  extractLsb'_eq_of_bits fun i hi => by
    rw [encodeI_bit, if_pos (by omega)]; simp

theorem funct3Of_encodeI (op : BitVec 7) (f3 : BitVec 3) (rd rs1 : RegIdx) (imm : BitVec 12) :
    funct3Of (encodeI op f3 rd rs1 imm) = f3 :=
  extractLsb'_eq_of_bits fun i hi => by
    rw [encodeI_bit, if_neg (by omega), if_neg (by omega), if_pos (by omega)]; simp

theorem opcodeOf_encodeU (op : BitVec 7) (rd : RegIdx) (imm : BitVec 20) :
    opcodeOf (encodeU op rd imm) = op :=
  extractLsb'_eq_of_bits fun i hi => by
    rw [encodeU_bit, if_pos (by omega)]; simp

theorem opcodeOf_encodeJ (op : BitVec 7) (rd : RegIdx) (off : BitVec 20) :
    opcodeOf (encodeJ op rd off) = op :=
  extractLsb'_eq_of_bits fun i hi => by
    rw [encodeJ_bit _ _ _ _ (by omega), if_pos (by omega)]; simp

theorem opcodeOf_encodeS (op : BitVec 7) (f3 : BitVec 3) (rs2 rs1 : RegIdx) (imm : BitVec 12) :
    opcodeOf (encodeS op f3 rs2 rs1 imm) = op :=
  extractLsb'_eq_of_bits fun i hi => by
    rw [encodeS_bit _ _ _ _ _ _ (by omega), if_pos (by omega)]; simp

theorem funct3Of_encodeS (op : BitVec 7) (f3 : BitVec 3) (rs2 rs1 : RegIdx) (imm : BitVec 12) :
    funct3Of (encodeS op f3 rs2 rs1 imm) = f3 :=
  extractLsb'_eq_of_bits fun i hi => by
    rw [encodeS_bit _ _ _ _ _ _ (by omega), if_neg (by omega), if_neg (by omega),
      if_pos (by omega)]
    simp

theorem opcodeOf_encodeB (op : BitVec 7) (f3 : BitVec 3) (rs1 rs2 : RegIdx) (off : BitVec 12) :
    opcodeOf (encodeB op f3 rs1 rs2 off) = op :=
  extractLsb'_eq_of_bits fun i hi => by
    rw [encodeB_bit _ _ _ _ _ _ (by omega), if_pos (by omega)]; simp

theorem funct3Of_encodeB (op : BitVec 7) (f3 : BitVec 3) (rs1 rs2 : RegIdx) (off : BitVec 12) :
    funct3Of (encodeB op f3 rs1 rs2 off) = f3 :=
  extractLsb'_eq_of_bits fun i hi => by
    rw [encodeB_bit _ _ _ _ _ _ (by omega), if_neg (by omega), if_neg (by omega),
      if_neg (by omega), if_pos (by omega)]
    simp

theorem opcodeOf_encode_halt (x : BitVec 25) : opcodeOf (encode (.halt x)) = 115#7 :=
  extractLsb'_eq_of_bits fun i hi => by
    rw [encodeSystem_bit, if_pos (by omega)]; simp

theorem rdOf_encodeI (op : BitVec 7) (f3 : BitVec 3) (rd rs1 : RegIdx) (imm : BitVec 12) :
    rdOf (encodeI op f3 rd rs1 imm) = rd :=
  extractLsb'_eq_of_bits fun i hi => by
    rw [encodeI_bit, if_neg (by omega), if_pos (by omega)]; simp

theorem rs1Of_encodeI (op : BitVec 7) (f3 : BitVec 3) (rd rs1 : RegIdx) (imm : BitVec 12) :
    rs1Of (encodeI op f3 rd rs1 imm) = rs1 :=
  extractLsb'_eq_of_bits fun i hi => by
    rw [encodeI_bit, if_neg (by omega), if_neg (by omega), if_neg (by omega), if_pos (by omega)]
    simp

theorem iFieldOf_encodeI (op : BitVec 7) (f3 : BitVec 3) (rd rs1 : RegIdx) (imm : BitVec 12) :
    iFieldOf (encodeI op f3 rd rs1 imm) = imm :=
  extractLsb'_eq_of_bits fun i hi => by
    rw [encodeI_bit, if_neg (by omega), if_neg (by omega), if_neg (by omega), if_neg (by omega)]
    simp

theorem rdOf_encodeU (op : BitVec 7) (rd : RegIdx) (imm : BitVec 20) :
    rdOf (encodeU op rd imm) = rd :=
  extractLsb'_eq_of_bits fun i hi => by
    rw [encodeU_bit, if_neg (by omega), if_pos (by omega)]; simp

theorem uFieldOf_encodeU (op : BitVec 7) (rd : RegIdx) (imm : BitVec 20) :
    uFieldOf (encodeU op rd imm) = imm :=
  extractLsb'_eq_of_bits fun i hi => by
    rw [encodeU_bit, if_neg (by omega), if_neg (by omega)]; simp

theorem rdOf_encodeJ (op : BitVec 7) (rd : RegIdx) (off : BitVec 20) :
    rdOf (encodeJ op rd off) = rd :=
  extractLsb'_eq_of_bits fun i hi => by
    rw [encodeJ_bit _ _ _ _ (by omega), if_neg (by omega), if_pos (by omega)]; simp

theorem rs1Of_encodeS (op : BitVec 7) (f3 : BitVec 3) (rs2 rs1 : RegIdx) (imm : BitVec 12) :
    rs1Of (encodeS op f3 rs2 rs1 imm) = rs1 :=
  extractLsb'_eq_of_bits fun i hi => by
    rw [encodeS_bit _ _ _ _ _ _ (by omega), if_neg (by omega), if_neg (by omega),
      if_neg (by omega), if_pos (by omega)]
    simp

theorem rs2Of_encodeS (op : BitVec 7) (f3 : BitVec 3) (rs2 rs1 : RegIdx) (imm : BitVec 12) :
    rs2Of (encodeS op f3 rs2 rs1 imm) = rs2 :=
  extractLsb'_eq_of_bits fun i hi => by
    rw [encodeS_bit _ _ _ _ _ _ (by omega), if_neg (by omega), if_neg (by omega),
      if_neg (by omega), if_neg (by omega), if_pos (by omega)]
    simp

theorem rs1Of_encodeB (op : BitVec 7) (f3 : BitVec 3) (rs1 rs2 : RegIdx) (off : BitVec 12) :
    rs1Of (encodeB op f3 rs1 rs2 off) = rs1 :=
  extractLsb'_eq_of_bits fun i hi => by
    rw [encodeB_bit _ _ _ _ _ _ (by omega), if_neg (by omega), if_neg (by omega),
      if_neg (by omega), if_neg (by omega), if_pos (by omega)]
    simp

theorem rs2Of_encodeB (op : BitVec 7) (f3 : BitVec 3) (rs1 rs2 : RegIdx) (off : BitVec 12) :
    rs2Of (encodeB op f3 rs1 rs2 off) = rs2 :=
  extractLsb'_eq_of_bits fun i hi => by
    rw [encodeB_bit _ _ _ _ _ _ (by omega), if_neg (by omega), if_neg (by omega),
      if_neg (by omega), if_neg (by omega), if_neg (by omega), if_pos (by omega)]
    simp

theorem systemRestOf_encode_halt (x : BitVec 25) : systemRestOf (encode (.halt x)) = x :=
  extractLsb'_eq_of_bits fun i hi => by
    rw [encodeSystem_bit, if_neg (by omega)]; simp

/-! ## Selection by opcode and funct3, and by mask and match (R49) -/

theorem select_eq_of {raw w : Word} (ho : opcodeOf raw = opcodeOf w) (hf : funct3Of raw = funct3Of w) :
    select raw = select w := by
  unfold select
  rw [ho, hf]

theorem getLsbD_mask7F : ∀ i, i < 32 → (0x0000007F#32).getLsbD i = decide (i < 7) := by decide

theorem getLsbD_mask707F :
    ∀ i, i < 32 → (0x0000707F#32).getLsbD i = decide (i < 7 ∨ 12 ≤ i ∧ i < 15) := by decide

theorem opcodeOf_bit (raw : Word) (i : Nat) (hi : i < 7) :
    (opcodeOf raw).getLsbD i = raw.getLsbD i := by simp [opcodeOf, hi]

theorem funct3Of_bit (raw : Word) (i : Nat) (hi : i < 3) :
    (funct3Of raw).getLsbD i = raw.getLsbD (12 + i) := by simp [funct3Of, hi]

/-- A row keyed by the opcode alone: the mask compares `raw[6:0]`. -/
theorem mask7F_eq_iff {raw p : Word} (hp : p &&& 0x0000007F#32 = p) :
    raw &&& 0x0000007F#32 = p ↔ opcodeOf raw = opcodeOf p := by
  constructor
  · rintro rfl
    refine BitVec.eq_of_getLsbD_eq fun i hi => ?_
    rw [opcodeOf_bit _ _ hi, opcodeOf_bit _ _ hi, BitVec.getLsbD_and, getLsbD_mask7F i (by omega)]
    simp [hi]
  · intro h
    refine BitVec.eq_of_getLsbD_eq fun i hi => ?_
    rw [← hp, BitVec.getLsbD_and, BitVec.getLsbD_and, getLsbD_mask7F i hi]
    by_cases hc : i < 7
    · rw [← opcodeOf_bit raw i hc, h, opcodeOf_bit _ _ hc]
    · simp [hc]

/-- A row keyed by opcode and funct3: the mask compares `raw[6:0]` and `raw[14:12]`. -/
theorem mask707F_eq_iff {raw p : Word} (hp : p &&& 0x0000707F#32 = p) :
    raw &&& 0x0000707F#32 = p ↔ opcodeOf raw = opcodeOf p ∧ funct3Of raw = funct3Of p := by
  constructor
  · rintro rfl
    constructor
    · refine BitVec.eq_of_getLsbD_eq fun i hi => ?_
      rw [opcodeOf_bit _ _ hi, opcodeOf_bit _ _ hi, BitVec.getLsbD_and,
        getLsbD_mask707F i (by omega)]
      simp [hi]
    · refine BitVec.eq_of_getLsbD_eq fun i hi => ?_
      rw [funct3Of_bit _ _ hi, funct3Of_bit _ _ hi, BitVec.getLsbD_and,
        getLsbD_mask707F (12 + i) (by omega)]
      simp [show 12 + i < 15 by omega]
  · rintro ⟨ho, hf⟩
    refine BitVec.eq_of_getLsbD_eq fun i hi => ?_
    rw [← hp, BitVec.getLsbD_and, BitVec.getLsbD_and, getLsbD_mask707F i hi]
    by_cases hc : i < 7
    · rw [← opcodeOf_bit raw i hc, ho, opcodeOf_bit _ _ hc]
    · by_cases hd : 12 ≤ i ∧ i < 15
      · obtain ⟨k, rfl⟩ := Nat.exists_eq_add_of_le hd.1
        rw [← funct3Of_bit raw k (by omega), hf, funct3Of_bit _ _ (by omega)]
      · simp [hc, hd]

/-! ## The decoder's outputs -/

/-- The decoded instruction is one of the selected case. -/
theorem case?_decode (raw : Word) : (decode raw).case? = select raw := by
  unfold decode
  cases select raw with
  | none => rfl
  | some c => cases c <;> rfl

@[simp] theorem decodeRecord_raw (raw : Word) : (decodeRecord raw).raw = raw := by
  unfold decodeRecord; split <;> rfl

@[simp] theorem decodeRecord_opcode (raw : Word) : (decodeRecord raw).opcode = opcodeOf raw := by
  unfold decodeRecord; split <;> rfl

/-- The halt bit is set for opcode 115 alone (R47). -/
theorem decodeRecord_halt (raw : Word) : (decodeRecord raw).halt = decide (opcodeOf raw = 115#7) := by
  unfold decodeRecord formatOf
  by_cases h : opcodeOf raw = 115#7
  · simp [h]
  · rw [if_neg h, decide_eq_false h]
    split <;> first | rfl | (rename_i hf; revert hf; repeat' split) <;> simp

end Sys2Proof
end

