-- ==== Sys2Proof/Laws/State.lean ====
section
/-! SUPPORT. One lemma per field per state update, so that no proof unfolds a record update. -/

namespace Sys2Proof.Machine

/-! ## memWrite -/

@[simp] theorem State.memWrite_regs (s : State) (a v : Word) :
    (s.memWrite a v).regs = s.regs := rfl

@[simp] theorem State.memWrite_pc (s : State) (a v : Word) :
    (s.memWrite a v).pc = s.pc := rfl

@[simp] theorem State.memWrite_runState (s : State) (a v : Word) :
    (s.memWrite a v).runState = s.runState := rfl

@[simp] theorem State.memWrite_dec (s : State) (a v : Word) :
    (s.memWrite a v).dec = s.dec := rfl

@[simp] theorem State.memWrite_decClass (s : State) (a v : Word) :
    (s.memWrite a v).decClass = s.decClass := rfl

@[simp] theorem State.memWrite_faultRecord (s : State) (a v : Word) :
    (s.memWrite a v).faultRecord = s.faultRecord := rfl

@[simp] theorem State.memWrite_mem (s : State) (a v : Word) :
    (s.memWrite a v).mem = s.mem.write a v := rfl

@[simp] theorem State.memWrite_base (s : State) (a v : Word) :
    (s.memWrite a v).base = s.base := rfl

@[simp] theorem State.memWrite_writeCursor (s : State) (a v : Word) :
    (s.memWrite a v).writeCursor = s.writeCursor := rfl

/-! ## writeReg -/

@[simp] theorem State.writeReg_pc (s : State) (rd : RegIdx) (v : Word) :
    (s.writeReg rd v).pc = s.pc := by unfold State.writeReg; split <;> rfl

@[simp] theorem State.writeReg_runState (s : State) (rd : RegIdx) (v : Word) :
    (s.writeReg rd v).runState = s.runState := by unfold State.writeReg; split <;> rfl

@[simp] theorem State.writeReg_dec (s : State) (rd : RegIdx) (v : Word) :
    (s.writeReg rd v).dec = s.dec := by unfold State.writeReg; split <;> rfl

@[simp] theorem State.writeReg_decClass (s : State) (rd : RegIdx) (v : Word) :
    (s.writeReg rd v).decClass = s.decClass := by unfold State.writeReg; split <;> rfl

@[simp] theorem State.writeReg_faultRecord (s : State) (rd : RegIdx) (v : Word) :
    (s.writeReg rd v).faultRecord = s.faultRecord := by unfold State.writeReg; split <;> rfl

@[simp] theorem State.writeReg_mem (s : State) (rd : RegIdx) (v : Word) :
    (s.writeReg rd v).mem = s.mem := by unfold State.writeReg; split <;> rfl

@[simp] theorem State.writeReg_base (s : State) (rd : RegIdx) (v : Word) :
    (s.writeReg rd v).base = s.base := by unfold State.writeReg; split <;> rfl

@[simp] theorem State.writeReg_writeCursor (s : State) (rd : RegIdx) (v : Word) :
    (s.writeReg rd v).writeCursor = s.writeCursor := by unfold State.writeReg; split <;> rfl

/-! ## setPc -/

@[simp] theorem State.setPc_regs (s : State) (t : Word) :
    (s.setPc t).regs = s.regs := rfl

@[simp] theorem State.setPc_pc (s : State) (t : Word) :
    (s.setPc t).pc = t := rfl

@[simp] theorem State.setPc_runState (s : State) (t : Word) :
    (s.setPc t).runState = s.runState := rfl

@[simp] theorem State.setPc_dec (s : State) (t : Word) :
    (s.setPc t).dec = s.dec := rfl

@[simp] theorem State.setPc_decClass (s : State) (t : Word) :
    (s.setPc t).decClass = s.decClass := rfl

@[simp] theorem State.setPc_faultRecord (s : State) (t : Word) :
    (s.setPc t).faultRecord = s.faultRecord := rfl

@[simp] theorem State.setPc_mem (s : State) (t : Word) :
    (s.setPc t).mem = s.mem := rfl

@[simp] theorem State.setPc_base (s : State) (t : Word) :
    (s.setPc t).base = s.base := rfl

@[simp] theorem State.setPc_writeCursor (s : State) (t : Word) :
    (s.setPc t).writeCursor = s.writeCursor := rfl

/-! ## advancePc -/

@[simp] theorem State.advancePc_regs (s : State) :
    s.advancePc.regs = s.regs := rfl

@[simp] theorem State.advancePc_pc (s : State) :
    s.advancePc.pc = s.pc + 4#32 := rfl

@[simp] theorem State.advancePc_runState (s : State) :
    s.advancePc.runState = s.runState := rfl

@[simp] theorem State.advancePc_dec (s : State) :
    s.advancePc.dec = s.dec := rfl

@[simp] theorem State.advancePc_decClass (s : State) :
    s.advancePc.decClass = s.decClass := rfl

@[simp] theorem State.advancePc_faultRecord (s : State) :
    s.advancePc.faultRecord = s.faultRecord := rfl

@[simp] theorem State.advancePc_mem (s : State) :
    s.advancePc.mem = s.mem := rfl

@[simp] theorem State.advancePc_base (s : State) :
    s.advancePc.base = s.base := rfl

@[simp] theorem State.advancePc_writeCursor (s : State) :
    s.advancePc.writeCursor = s.writeCursor := rfl

/-! ## commitReg -/

@[simp] theorem State.commitReg_regs (s : State) (rd : RegIdx) (v : Word) :
    (s.commitReg rd v).regs = (s.writeReg rd v).regs := by simp [State.commitReg]

@[simp] theorem State.commitReg_pc (s : State) (rd : RegIdx) (v : Word) :
    (s.commitReg rd v).pc = s.pc + 4#32 := by simp [State.commitReg]

@[simp] theorem State.commitReg_runState (s : State) (rd : RegIdx) (v : Word) :
    (s.commitReg rd v).runState = s.runState := by simp [State.commitReg]

@[simp] theorem State.commitReg_dec (s : State) (rd : RegIdx) (v : Word) :
    (s.commitReg rd v).dec = s.dec := by simp [State.commitReg]

@[simp] theorem State.commitReg_decClass (s : State) (rd : RegIdx) (v : Word) :
    (s.commitReg rd v).decClass = s.decClass := by simp [State.commitReg]

@[simp] theorem State.commitReg_faultRecord (s : State) (rd : RegIdx) (v : Word) :
    (s.commitReg rd v).faultRecord = s.faultRecord := by simp [State.commitReg]

@[simp] theorem State.commitReg_mem (s : State) (rd : RegIdx) (v : Word) :
    (s.commitReg rd v).mem = s.mem := by simp [State.commitReg]

@[simp] theorem State.commitReg_base (s : State) (rd : RegIdx) (v : Word) :
    (s.commitReg rd v).base = s.base := by simp [State.commitReg]

@[simp] theorem State.commitReg_writeCursor (s : State) (rd : RegIdx) (v : Word) :
    (s.commitReg rd v).writeCursor = s.writeCursor := by simp [State.commitReg]

/-! ## haltRun -/

@[simp] theorem State.haltRun_regs (s : State) :
    s.haltRun.regs = s.regs := rfl

@[simp] theorem State.haltRun_pc (s : State) :
    s.haltRun.pc = s.pc := rfl

@[simp] theorem State.haltRun_runState (s : State) :
    s.haltRun.runState = .halted := rfl

@[simp] theorem State.haltRun_dec (s : State) :
    s.haltRun.dec = s.dec := rfl

@[simp] theorem State.haltRun_decClass (s : State) :
    s.haltRun.decClass = s.decClass := rfl

@[simp] theorem State.haltRun_faultRecord (s : State) :
    s.haltRun.faultRecord = s.faultRecord := rfl

@[simp] theorem State.haltRun_mem (s : State) :
    s.haltRun.mem = s.mem := rfl

@[simp] theorem State.haltRun_base (s : State) :
    s.haltRun.base = s.base := rfl

@[simp] theorem State.haltRun_writeCursor (s : State) :
    s.haltRun.writeCursor = s.writeCursor := rfl

/-! ## raiseFault -/

@[simp] theorem State.raiseFault_regs (s : State) (reason : FaultReason) :
    (s.raiseFault reason).regs = s.regs := rfl

@[simp] theorem State.raiseFault_pc (s : State) (reason : FaultReason) :
    (s.raiseFault reason).pc = s.pc := rfl

@[simp] theorem State.raiseFault_runState (s : State) (reason : FaultReason) :
    (s.raiseFault reason).runState = .faulted := rfl

@[simp] theorem State.raiseFault_dec (s : State) (reason : FaultReason) :
    (s.raiseFault reason).dec = s.dec := rfl

@[simp] theorem State.raiseFault_decClass (s : State) (reason : FaultReason) :
    (s.raiseFault reason).decClass = s.decClass := rfl

@[simp] theorem State.raiseFault_faultRecord (s : State) (reason : FaultReason) :
    (s.raiseFault reason).faultRecord = some { reason := reason, pc := s.pc, raw := s.dec.raw } := rfl

@[simp] theorem State.raiseFault_mem (s : State) (reason : FaultReason) :
    (s.raiseFault reason).mem = s.mem := rfl

@[simp] theorem State.raiseFault_base (s : State) (reason : FaultReason) :
    (s.raiseFault reason).base = s.base := rfl

@[simp] theorem State.raiseFault_writeCursor (s : State) (reason : FaultReason) :
    (s.raiseFault reason).writeCursor = s.writeCursor := rfl

/-! ## resetPhase -/

@[simp] theorem State.resetPhase_regs (s : State) :
    s.resetPhase.regs = s.regs := rfl

@[simp] theorem State.resetPhase_pc (s : State) :
    s.resetPhase.pc = s.pc := rfl

@[simp] theorem State.resetPhase_runState (s : State) :
    s.resetPhase.runState = s.runState := rfl

@[simp] theorem State.resetPhase_dec (s : State) :
    s.resetPhase.dec = DecodeRecord.cleared := rfl

@[simp] theorem State.resetPhase_decClass (s : State) :
    s.resetPhase.decClass = s.decClass := rfl

@[simp] theorem State.resetPhase_faultRecord (s : State) :
    s.resetPhase.faultRecord = s.faultRecord := rfl

@[simp] theorem State.resetPhase_mem (s : State) :
    s.resetPhase.mem = s.mem := rfl

@[simp] theorem State.resetPhase_base (s : State) :
    s.resetPhase.base = s.base := rfl

@[simp] theorem State.resetPhase_writeCursor (s : State) :
    s.resetPhase.writeCursor = s.writeCursor := rfl

/-! ## decodePhase -/

@[simp] theorem State.decodePhase_regs (s : State) (raw : Word) :
    (s.decodePhase raw).regs = s.regs := rfl

@[simp] theorem State.decodePhase_pc (s : State) (raw : Word) :
    (s.decodePhase raw).pc = s.pc := rfl

@[simp] theorem State.decodePhase_runState (s : State) (raw : Word) :
    (s.decodePhase raw).runState = s.runState := rfl

@[simp] theorem State.decodePhase_dec (s : State) (raw : Word) :
    (s.decodePhase raw).dec = decodeRecord raw := rfl

@[simp] theorem State.decodePhase_decClass (s : State) (raw : Word) :
    (s.decodePhase raw).decClass = some (classify raw) := rfl

@[simp] theorem State.decodePhase_faultRecord (s : State) (raw : Word) :
    (s.decodePhase raw).faultRecord = s.faultRecord := rfl

@[simp] theorem State.decodePhase_mem (s : State) (raw : Word) :
    (s.decodePhase raw).mem = s.mem := rfl

@[simp] theorem State.decodePhase_base (s : State) (raw : Word) :
    (s.decodePhase raw).base = s.base := rfl

@[simp] theorem State.decodePhase_writeCursor (s : State) (raw : Word) :
    (s.decodePhase raw).writeCursor = s.writeCursor := rfl

/-! ## beforeExecute -/

@[simp] theorem State.beforeExecute_regs (s : State) :
    s.beforeExecute.regs = s.regs := rfl

@[simp] theorem State.beforeExecute_pc (s : State) :
    s.beforeExecute.pc = s.pc := rfl

@[simp] theorem State.beforeExecute_runState (s : State) :
    s.beforeExecute.runState = s.runState := rfl

@[simp] theorem State.beforeExecute_dec (s : State) :
    s.beforeExecute.dec = decodeRecord s.fetchWord := rfl

@[simp] theorem State.beforeExecute_decClass (s : State) :
    s.beforeExecute.decClass = some (classify s.fetchWord) := rfl

@[simp] theorem State.beforeExecute_faultRecord (s : State) :
    s.beforeExecute.faultRecord = s.faultRecord := rfl

@[simp] theorem State.beforeExecute_mem (s : State) :
    s.beforeExecute.mem = s.mem := rfl

@[simp] theorem State.beforeExecute_base (s : State) :
    s.beforeExecute.base = s.base := rfl

@[simp] theorem State.beforeExecute_writeCursor (s : State) :
    s.beforeExecute.writeCursor = s.writeCursor := rfl

/-! ## branchIf -/

@[simp] theorem State.branchIf_regs (s : State) (taken : Bool) (off : BitVec 12) :
    (s.branchIf taken off).regs = s.regs := by cases taken <;> rfl

@[simp] theorem State.branchIf_pc (s : State) (taken : Bool) (off : BitVec 12) :
    (s.branchIf taken off).pc = if taken then s.branchTarget off else s.pc + 4#32 := by cases taken <;> rfl

@[simp] theorem State.branchIf_runState (s : State) (taken : Bool) (off : BitVec 12) :
    (s.branchIf taken off).runState = s.runState := by cases taken <;> rfl

@[simp] theorem State.branchIf_dec (s : State) (taken : Bool) (off : BitVec 12) :
    (s.branchIf taken off).dec = s.dec := by cases taken <;> rfl

@[simp] theorem State.branchIf_decClass (s : State) (taken : Bool) (off : BitVec 12) :
    (s.branchIf taken off).decClass = s.decClass := by cases taken <;> rfl

@[simp] theorem State.branchIf_faultRecord (s : State) (taken : Bool) (off : BitVec 12) :
    (s.branchIf taken off).faultRecord = s.faultRecord := by cases taken <;> rfl

@[simp] theorem State.branchIf_mem (s : State) (taken : Bool) (off : BitVec 12) :
    (s.branchIf taken off).mem = s.mem := by cases taken <;> rfl

@[simp] theorem State.branchIf_base (s : State) (taken : Bool) (off : BitVec 12) :
    (s.branchIf taken off).base = s.base := by cases taken <;> rfl

@[simp] theorem State.branchIf_writeCursor (s : State) (taken : Bool) (off : BitVec 12) :
    (s.branchIf taken off).writeCursor = s.writeCursor := by cases taken <;> rfl

/-! ## placeWord -/

@[simp] theorem State.placeWord_regs (s : State) (raw : Word) :
    (s.placeWord raw).regs = s.regs := rfl

@[simp] theorem State.placeWord_pc (s : State) (raw : Word) :
    (s.placeWord raw).pc = s.pc := rfl

@[simp] theorem State.placeWord_runState (s : State) (raw : Word) :
    (s.placeWord raw).runState = .running := rfl

@[simp] theorem State.placeWord_dec (s : State) (raw : Word) :
    (s.placeWord raw).dec = s.dec := rfl

@[simp] theorem State.placeWord_decClass (s : State) (raw : Word) :
    (s.placeWord raw).decClass = s.decClass := rfl

@[simp] theorem State.placeWord_faultRecord (s : State) (raw : Word) :
    (s.placeWord raw).faultRecord = s.faultRecord := rfl

@[simp] theorem State.placeWord_mem (s : State) (raw : Word) :
    (s.placeWord raw).mem = s.mem.write (s.storeIndex s.pc) raw := rfl

@[simp] theorem State.placeWord_base (s : State) (raw : Word) :
    (s.placeWord raw).base = s.base := rfl

@[simp] theorem State.placeWord_writeCursor (s : State) (raw : Word) :
    (s.placeWord raw).writeCursor = s.writeCursor := rfl

/-! ## memClear -/

@[simp] theorem State.memClear_regs (s : State) :
    s.memClear.regs = s.regs := rfl

@[simp] theorem State.memClear_pc (s : State) :
    s.memClear.pc = s.pc := rfl

@[simp] theorem State.memClear_runState (s : State) :
    s.memClear.runState = s.runState := rfl

@[simp] theorem State.memClear_dec (s : State) :
    s.memClear.dec = s.dec := rfl

@[simp] theorem State.memClear_decClass (s : State) :
    s.memClear.decClass = s.decClass := rfl

@[simp] theorem State.memClear_faultRecord (s : State) :
    s.memClear.faultRecord = s.faultRecord := rfl

@[simp] theorem State.memClear_mem (s : State) :
    s.memClear.mem = { cells := [] } := rfl

@[simp] theorem State.memClear_base (s : State) :
    s.memClear.base = s.base := rfl

@[simp] theorem State.memClear_writeCursor (s : State) :
    s.memClear.writeCursor = 0#32 := rfl

/-! ## resetOffset -/

@[simp] theorem State.resetOffset_regs (s : State) :
    s.resetOffset.regs = s.regs := rfl

@[simp] theorem State.resetOffset_pc (s : State) :
    s.resetOffset.pc = s.pc := rfl

@[simp] theorem State.resetOffset_runState (s : State) :
    s.resetOffset.runState = s.runState := rfl

@[simp] theorem State.resetOffset_dec (s : State) :
    s.resetOffset.dec = s.dec := rfl

@[simp] theorem State.resetOffset_decClass (s : State) :
    s.resetOffset.decClass = s.decClass := rfl

@[simp] theorem State.resetOffset_faultRecord (s : State) :
    s.resetOffset.faultRecord = s.faultRecord := rfl

@[simp] theorem State.resetOffset_mem (s : State) :
    s.resetOffset.mem = s.mem := rfl

@[simp] theorem State.resetOffset_base (s : State) :
    s.resetOffset.base = 0#32 := rfl

@[simp] theorem State.resetOffset_writeCursor (s : State) :
    s.resetOffset.writeCursor = s.writeCursor := rfl

/-! ## loadEntry -/

@[simp] theorem State.loadEntry_regs (s : State) (e : Entry) :
    (s.loadEntry e).regs = s.regs := rfl

@[simp] theorem State.loadEntry_pc (s : State) (e : Entry) :
    (s.loadEntry e).pc = s.pc := rfl

@[simp] theorem State.loadEntry_runState (s : State) (e : Entry) :
    (s.loadEntry e).runState = s.runState := rfl

@[simp] theorem State.loadEntry_dec (s : State) (e : Entry) :
    (s.loadEntry e).dec = s.dec := rfl

@[simp] theorem State.loadEntry_decClass (s : State) (e : Entry) :
    (s.loadEntry e).decClass = s.decClass := rfl

@[simp] theorem State.loadEntry_faultRecord (s : State) (e : Entry) :
    (s.loadEntry e).faultRecord = s.faultRecord := rfl

@[simp] theorem State.loadEntry_mem (s : State) (e : Entry) :
    (s.loadEntry e).mem = s.mem.write (BitVec.ofNat 32 e.1 - s.base) (BitVec.ofNat 32 e.2) := rfl

@[simp] theorem State.loadEntry_base (s : State) (e : Entry) :
    (s.loadEntry e).base = s.base := rfl

@[simp] theorem State.loadEntry_writeCursor (s : State) (e : Entry) :
    (s.loadEntry e).writeCursor = Config.cursorAfterLoad s.writeCursor (BitVec.ofNat 32 e.1 - s.base) := rfl

/-! ## runStart -/

@[simp] theorem State.runStart_regs (s : State) :
    s.runStart.regs = Vector.replicate 32 0#32 := rfl

@[simp] theorem State.runStart_pc (s : State) :
    s.runStart.pc = 0#32 := rfl

@[simp] theorem State.runStart_runState (s : State) :
    s.runStart.runState = .running := rfl

@[simp] theorem State.runStart_dec (s : State) :
    s.runStart.dec = DecodeRecord.cleared := rfl

@[simp] theorem State.runStart_decClass (s : State) :
    s.runStart.decClass = none := rfl

@[simp] theorem State.runStart_faultRecord (s : State) :
    s.runStart.faultRecord = none := rfl

@[simp] theorem State.runStart_mem (s : State) :
    s.runStart.mem = s.mem := rfl

@[simp] theorem State.runStart_base (s : State) :
    s.runStart.base = s.base := rfl

@[simp] theorem State.runStart_writeCursor (s : State) :
    s.runStart.writeCursor = s.writeCursor := rfl

end Sys2Proof.Machine
end

