-- ==== Sys2Proof/Laws/Memory.lean ====
section
/-! SUPPORT. What the memory operations do: a read after a write, and the canonical form kept. -/

namespace Sys2Proof.Machine

@[simp] theorem cellsGet_nil (a : Nat) : cellsGet [] a = 0#32 := rfl

theorem cellsGet_cons (c : MemCell) (rest : List MemCell) (a : Nat) :
    cellsGet (c :: rest) a = if a = c.1 then c.2 else cellsGet rest a := rfl

/-- A cell that no entry lists reads as an unwritten one. -/
theorem cellsGet_of_not_listed {l : List MemCell} {a : Nat} (h : ∀ c ∈ l, c.1 ≠ a) :
    cellsGet l a = 0#32 := by
  induction l with
  | nil => rfl
  | cons c rest ih =>
    rw [cellsGet_cons, if_neg (fun e => h c (by simp) e.symm), ih (fun d hd => h d (by simp [hd]))]

theorem cellsGet_cellsCons (a : Nat) (v : Word) (rest : List MemCell) (b : Nat)
    (h : ∀ c ∈ rest, c.1 ≠ a) :
    cellsGet (cellsCons a v rest) b = if b = a then v else cellsGet rest b := by
  unfold cellsCons
  split
  · next hv =>
    split
    · next hb => rw [hv, hb, cellsGet_of_not_listed h]; rfl
    · rfl
  · rfl

/-- All a write to a canonical list does to reads: the address written reads the value, every other
address reads as before (20_memory R26). -/
theorem cellsGet_cellsSet {l : List MemCell} (hl : l.Pairwise (fun p q => p.1 < q.1))
    (a : Nat) (v : Word) (b : Nat) :
    cellsGet (cellsSet l a v) b = if b = a then v else cellsGet l b := by
  induction l with
  | nil => simp [cellsSet, cellsGet_cellsCons]
  | cons c rest ih =>
    rw [List.pairwise_cons] at hl
    unfold cellsSet
    split
    · next hlt =>
      rw [cellsGet_cellsCons]
      intro d hd
      rcases List.mem_cons.mp hd with rfl | hd
      · omega
      · have := hl.1 d hd; omega
    · split
      · next hlt heq =>
        rw [cellsGet_cellsCons]
        · by_cases hb : b = a
          · simp [hb]
          · simp [hb, cellsGet_cons, show b ≠ c.1 by omega]
        · intro d hd
          have := hl.1 d hd; omega
      · next hlt hne =>
        rw [cellsGet_cons, cellsGet_cons, ih hl.2]
        by_cases hb : b = c.1
        · simp [hb, show c.1 ≠ a by omega]
        · simp [hb]

/-- Every other address reads as before, whatever the list (20_memory R26). -/
theorem cellsGet_cellsSet_ne (l : List MemCell) {a b : Nat} (v : Word) (h : b ≠ a) :
    cellsGet (cellsSet l a v) b = cellsGet l b := by
  induction l with
  | nil => unfold cellsSet cellsCons; split <;> simp [cellsGet_cons, h]
  | cons c rest ih =>
    unfold cellsSet cellsCons
    split
    · split <;> simp [cellsGet_cons, h]
    · split
      · next heq => split <;> simp [cellsGet_cons, h, show b ≠ c.1 by omega]
      · simp [cellsGet_cons, ih]

theorem mem_cellsCons {a : Nat} {v : Word} {rest : List MemCell} {d : MemCell}
    (h : d ∈ cellsCons a v rest) : d = (a, v) ∧ v ≠ unwritten ∨ d ∈ rest := by
  unfold cellsCons at h
  split at h
  · exact .inr h
  · next hv =>
    rcases List.mem_cons.mp h with rfl | h
    · exact .inl ⟨rfl, hv⟩
    · exact .inr h

theorem mem_cellsSet {l : List MemCell} {a : Nat} {v : Word} {d : MemCell}
    (h : d ∈ cellsSet l a v) : d = (a, v) ∧ v ≠ unwritten ∨ d ∈ l := by
  induction l with
  | nil => exact mem_cellsCons h
  | cons c rest ih =>
    unfold cellsSet at h
    split at h
    · exact mem_cellsCons h
    · split at h
      · rcases mem_cellsCons h with h | h
        · exact .inl h
        · exact .inr (by simp [h])
      · rcases List.mem_cons.mp h with rfl | h
        · exact .inr (by simp)
        · rcases ih h with h | h
          · exact .inl h
          · exact .inr (by simp [h])

theorem cellsCons_pairwise {a : Nat} {v : Word} {rest : List MemCell}
    (hr : rest.Pairwise (fun p q => p.1 < q.1)) (h : ∀ c ∈ rest, a < c.1) :
    (cellsCons a v rest).Pairwise (fun p q => p.1 < q.1) := by
  unfold cellsCons
  split
  · exact hr
  · exact List.pairwise_cons.mpr ⟨h, hr⟩

theorem cellsSet_pairwise {l : List MemCell} (hl : l.Pairwise (fun p q => p.1 < q.1))
    (a : Nat) (v : Word) : (cellsSet l a v).Pairwise (fun p q => p.1 < q.1) := by
  induction l with
  | nil => exact cellsCons_pairwise hl (by simp)
  | cons c rest ih =>
    have hc := List.pairwise_cons.mp hl
    unfold cellsSet
    split
    · next hlt =>
      refine cellsCons_pairwise hl fun d hd => ?_
      rcases List.mem_cons.mp hd with rfl | hd
      · exact hlt
      · exact Nat.lt_trans hlt (hc.1 d hd)
    · split
      · next heq => exact cellsCons_pairwise hc.2 fun d hd => heq ▸ hc.1 d hd
      · next hlt hne =>
        refine List.pairwise_cons.mpr ⟨fun d hd => ?_, ih hc.2⟩
        rcases mem_cellsSet hd with ⟨rfl, _⟩ | hd
        · show c.1 < a; omega
        · exact hc.1 d hd

/-- Every write keeps the canonical form. -/
theorem Memory.write_wf {m : Memory} (h : m.wf) (a v : Word) : (m.write a v).wf := by
  refine ⟨cellsSet_pairwise h.1 _ _, fun c hc => ?_⟩
  rcases mem_cellsSet hc with ⟨rfl, hv⟩ | hc
  · exact ⟨a.isLt, hv⟩
  · exact h.2 c hc

theorem Memory.empty_wf : Memory.wf { cells := [] } := ⟨.nil, by simp⟩

theorem State.reset_mem_wf : State.reset.mem.wf := Memory.empty_wf

/-- The word read from the address just written (20_memory R26). -/
theorem Memory.read_write_same {m : Memory} (h : m.wf) (a v : Word) : (m.write a v).read a = v := by
  simp [Memory.read, Memory.write, cellsGet_cellsSet h.1]

/-- Any other address reads as before (20_memory R26). -/
theorem Memory.read_write_ne (m : Memory) {a b : Word} (v : Word) (h : b ≠ a) :
    (m.write a v).read b = m.read b :=
  cellsGet_cellsSet_ne _ _ (fun e => h (BitVec.eq_of_toNat_eq e))

@[simp] theorem Memory.read_empty (a : Word) : Memory.read { cells := [] } a = 0#32 := rfl

/-- Every operation that writes memory keeps the canonical form. -/
theorem State.memWrite_wf {s : State} (h : s.mem.wf) (a v : Word) : (s.memWrite a v).mem.wf :=
  Memory.write_wf h a v

theorem State.memClear_wf (s : State) : s.memClear.mem.wf := Memory.empty_wf

theorem State.loadEntry_wf {s : State} (h : s.mem.wf) (e : Entry) : (s.loadEntry e).mem.wf :=
  Memory.write_wf h _ _

theorem State.loadEntries_wf {s : State} (h : s.mem.wf) (es : List Entry) :
    (s.loadEntries es).mem.wf := by
  induction es generalizing s with
  | nil => exact h
  | cons e rest ih => exact ih (State.loadEntry_wf h e)

theorem State.placeWord_wf {s : State} (h : s.mem.wf) (raw : Word) : (s.placeWord raw).mem.wf :=
  Memory.write_wf h _ _

end Sys2Proof.Machine
end

