-- ==== Sys2Proof/Laws/Ops.lean ====
section
/-! SUPPORT. What each shared operation on registers, operands and the run state does, said once. -/

namespace Sys2Proof.Machine

/-! ## Parameters at the spec's defaults -/

@[simp] theorem eaFaults_eq_false (ea : Word) : eaFaults ea = false := rfl

@[simp] theorem State.storeIndex_eq (s : State) (a : Word) : s.storeIndex a = a := rfl

/-! ## Registers -/

/-- x0 reads 0 in every state (10_state R13). -/
@[simp] theorem State.readReg_zero (s : State) : s.readReg 0#5 = 0#32 := rfl

theorem State.readReg_of_ne (s : State) {i : RegIdx} (h : i ≠ 0#5) : s.readReg i = s.regs[i.toNat] :=
  if_neg h

/-- Two states with the same register array read alike. -/
theorem State.readReg_congr {s t : State} (h : t.regs = s.regs) (r : RegIdx) :
    t.readReg r = s.readReg r := by simp [State.readReg, h]

/-- Two states with the same store read alike. -/
theorem State.memRead_congr {s t : State} (h : t.mem = s.mem) (a : Word) :
    t.memRead a = s.memRead a := by simp [State.memRead, h]

/-- Writing x0 changes nothing (10_state R13). -/
@[simp] theorem State.writeReg_zero (s : State) (v : Word) : s.writeReg 0#5 v = s := rfl

theorem State.readReg_writeReg_same (s : State) {rd : RegIdx} (h : rd ≠ 0#5) (v : Word) :
    (s.writeReg rd v).readReg rd = v := by
  simp [State.readReg, State.writeReg, h]

theorem State.readReg_writeReg_ne (s : State) {rd r : RegIdx} (h : r ≠ rd) (v : Word) :
    (s.writeReg rd v).readReg r = s.readReg r := by
  unfold State.readReg State.writeReg
  split
  · rfl
  · split
    · rfl
    · exact Vector.getElem_set_ne rd.isLt r.isLt fun e => h (BitVec.eq_of_toNat_eq e.symm)

/-- Slot 0 of the array is never written. -/
theorem State.writeReg_zeroSlot (s : State) (rd : RegIdx) (v : Word) :
    (s.writeReg rd v).regs[0] = s.regs[0] := by
  unfold State.writeReg
  split
  · rfl
  · next h =>
    refine Vector.getElem_set_ne rd.isLt (by decide) fun e => h (BitVec.eq_of_toNat_eq ?_)
    simpa using e

/-- All a register write does (10_state R13). -/
theorem State.writeReg_spec (s : State) (rd : RegIdx) (v : Word) :
    RegResult rd v s (s.writeReg rd v) :=
  ⟨fun h => s.readReg_writeReg_same h v, rfl, fun _ h => s.readReg_writeReg_ne h v⟩

/-- `x[i]` at a 12-bit index has a value exactly below 32 (10_state R16). -/
theorem State.readWide_eq (s : State) (i : WideIdx) :
    s.readWide i = if i.toNat < 32 then some (s.readReg (i.setWidth 5)) else none := rfl

/-! ## Operations of the execute phase -/

@[simp] theorem State.setPc_readReg (s : State) (t : Word) (r : RegIdx) :
    (s.setPc t).readReg r = s.readReg r := rfl

@[simp] theorem State.setPc_memRead (s : State) (t a : Word) : (s.setPc t).memRead a = s.memRead a := rfl

@[simp] theorem State.advancePc_readReg (s : State) (r : RegIdx) :
    s.advancePc.readReg r = s.readReg r := rfl

@[simp] theorem State.advancePc_memRead (s : State) (a : Word) :
    s.advancePc.memRead a = s.memRead a := rfl

@[simp] theorem State.memWrite_readReg (s : State) (a v : Word) (r : RegIdx) :
    (s.memWrite a v).readReg r = s.readReg r := rfl

@[simp] theorem State.writeReg_memRead (s : State) (rd : RegIdx) (v a : Word) :
    (s.writeReg rd v).memRead a = s.memRead a := State.memRead_congr (by simp) a

@[simp] theorem State.commitReg_memRead (s : State) (rd : RegIdx) (v a : Word) :
    (s.commitReg rd v).memRead a = s.memRead a := State.memRead_congr (by simp) a

@[simp] theorem State.haltRun_readReg (s : State) (r : RegIdx) :
    s.haltRun.readReg r = s.readReg r := rfl

@[simp] theorem State.haltRun_memRead (s : State) (a : Word) : s.haltRun.memRead a = s.memRead a := rfl

@[simp] theorem State.raiseFault_readReg (s : State) (c : FaultReason) (r : RegIdx) :
    (s.raiseFault c).readReg r = s.readReg r := rfl

@[simp] theorem State.raiseFault_memRead (s : State) (c : FaultReason) (a : Word) :
    (s.raiseFault c).memRead a = s.memRead a := rfl

@[simp] theorem State.decodePhase_readReg (s : State) (raw : Word) (r : RegIdx) :
    (s.decodePhase raw).readReg r = s.readReg r := rfl

@[simp] theorem State.decodePhase_memRead (s : State) (raw a : Word) :
    (s.decodePhase raw).memRead a = s.memRead a := rfl

@[simp] theorem State.beforeExecute_readReg (s : State) (r : RegIdx) :
    s.beforeExecute.readReg r = s.readReg r := rfl

@[simp] theorem State.beforeExecute_memRead (s : State) (a : Word) :
    s.beforeExecute.memRead a = s.memRead a := rfl

@[simp] theorem State.beforeExecute_effectiveAddress (s : State) (rs1 : RegIdx) (imm : BitVec 12) :
    s.beforeExecute.effectiveAddress rs1 imm = s.effectiveAddress rs1 imm := rfl

/-- The read of an address in the state after a store (20_memory R26). -/
theorem State.memRead_memWrite_same {s : State} (h : s.mem.wf) (a v : Word) :
    (s.memWrite a v).memRead a = v := Memory.read_write_same h a v

theorem State.memRead_memWrite_ne (s : State) {a b : Word} (v : Word) (h : b ≠ a) :
    (s.memWrite a v).memRead b = s.memRead b := Memory.read_write_ne _ v h

/-- All that committing a register result does (40_fetch_cycle R57). -/
theorem State.commitReg_spec (s : State) (rd : RegIdx) (v : Word) :
    WritesReg rd v s (s.commitReg rd v) :=
  ⟨s.writeReg_spec rd v, by simp, fun a => by simp, ⟨by simp, by simp⟩, by simp [SameRest]⟩

/-- All that setting the pc does. -/
theorem State.setPc_spec (s : State) (t : Word) : WritesPc t s (s.setPc t) :=
  ⟨rfl, fun _ => rfl, fun _ => rfl, ⟨rfl, rfl⟩, ⟨rfl, rfl, rfl, rfl⟩⟩

/-- All that a sequential step without a result does. -/
theorem State.advancePc_spec (s : State) : WritesPc (s.pc + 4#32) s s.advancePc := s.setPc_spec _

/-- All that a conditional branch does (43_control R72). -/
theorem State.branchIf_spec (s : State) (taken : Bool) (off : BitVec 12) :
    WritesPc (if taken then s.branchTarget off else s.pc + 4#32) s (s.branchIf taken off) := by
  cases taken
  · exact s.advancePc_spec
  · exact s.setPc_spec _

/-! ## Operands -/

/-- SLLI's amount is the low 5 bits of the field: `raw[24:20]` (41_alu R63). -/
theorem shiftAmount_eq (imm : BitVec 12) : shiftAmount imm = imm.extractLsb' 0 5 := by
  refine BitVec.eq_of_getLsbD_eq fun i hi => ?_
  have hm : (31#32).getLsbD i = true := by
    have : i = 0 ∨ i = 1 ∨ i = 2 ∨ i = 3 ∨ i = 4 := by omega
    rcases this with rfl | rfl | rfl | rfl | rfl <;> rfl
  simp only [shiftAmount, sext12, BitVec.getLsbD_setWidth, BitVec.getLsbD_and,
    BitVec.getLsbD_signExtend, BitVec.getLsbD_extractLsb', hm, hi, show i < 32 by omega,
    show i < 12 by omega, decide_true, Bool.true_and, Bool.and_true, if_true, Nat.zero_add]

/-- U-type operands: the field above twelve zeros (41_alu R66, 30_encoding R43). -/
theorem upperImm_eq (imm : BitVec 20) : upperImm imm = imm ++ 0#12 := by
  refine BitVec.eq_of_getLsbD_eq fun i hi => ?_
  refine Eq.trans ?_ (BitVec.getLsbD_append (x := imm) (y := 0#12) (i := i)).symm
  by_cases h : i < 12
  · simp [upperImm, zext20, h]
  · simp [upperImm, zext20, h, hi]

end Sys2Proof.Machine
end

