-- ==== Sys2Proof/Laws/Exec.lean ====
section
/-! SUPPORT. The meanings at the spec's parameters, one equation per instruction, and what an execute
phase can do. -/

namespace Sys2Proof.Machine

theorem exec_halt (x : BitVec 25) (s : State) : exec (.halt x) s = .next s.haltRun := rfl

theorem exec_jal (rd : RegIdx) (off : BitVec 20) (s : State) :
    exec (.jal rd off) s = .next (s.setPc (s.jumpTarget off)) := rfl

theorem exec_addi (rd rs1 : RegIdx) (imm : BitVec 12) (s : State) :
    exec (.addi rd rs1 imm) s = .next (s.commitReg rd (s.readReg rs1 + sext12 imm)) := rfl

theorem exec_slli (rd rs1 : RegIdx) (imm : BitVec 12) (s : State) :
    exec (.slli rd rs1 imm) s =
      .next (s.commitReg rd (s.readReg rs1 <<< (imm.extractLsb' 0 5).toNat)) := by
  rw [← shiftAmount_eq]; rfl

theorem exec_ori (rd rs1 : RegIdx) (imm : BitVec 12) (s : State) :
    exec (.ori rd rs1 imm) s = .next (s.commitReg rd (s.readReg rs1 ||| sext12 imm)) := rfl

theorem exec_xor_of_lt (rd rs1 : RegIdx) {rs2 : WideIdx} (h : rs2.toNat < 32) (s : State) :
    exec (.xor rd rs1 rs2) s =
      .next (s.commitReg rd (s.readReg rs1 ^^^ s.readReg (rs2.setWidth 5))) := by
  simp [exec, execXor, State.readWide_eq, h, aluXor]

theorem exec_xor_of_ge (rd rs1 : RegIdx) {rs2 : WideIdx} (h : 32 ≤ rs2.toNat) (s : State) :
    exec (.xor rd rs1 rs2) s = .next (s.raiseFault .regIndexOutOfRange) := by
  simp [exec, execXor, State.readWide_eq, Nat.not_lt.mpr h]

theorem exec_lw (rd rs1 : RegIdx) (imm : BitVec 12) (s : State) :
    exec (.lw rd rs1 imm) s = .next (s.commitReg rd (s.memRead (s.effectiveAddress rs1 imm))) := by
  simp [exec, execLw]

theorem exec_sw (rs2 rs1 : RegIdx) (imm : BitVec 12) (s : State) :
    exec (.sw rs2 rs1 imm) s =
      .next (s.memWrite (s.effectiveAddress rs1 imm) (s.readReg rs2)).advancePc := by
  simp [exec, execSw]

theorem exec_lui (rd : RegIdx) (imm : BitVec 20) (s : State) :
    exec (.lui rd imm) s = .next (s.commitReg rd (upperImm imm)) := rfl

theorem exec_auipc (rd : RegIdx) (imm : BitVec 20) (s : State) :
    exec (.auipc rd imm) s = .next (s.commitReg rd (upperImm imm + s.pc)) := rfl

theorem exec_beq (rs1 rs2 : RegIdx) (off : BitVec 12) (s : State) :
    exec (.beq rs1 rs2 off) s = .next (s.branchIf (s.readReg rs1 == s.readReg rs2) off) := rfl

theorem exec_bne (rs1 rs2 : RegIdx) (off : BitVec 12) (s : State) :
    exec (.bne rs1 rs2 off) s = .next (s.branchIf (!(s.readReg rs1 == s.readReg rs2)) off) := rfl

theorem exec_defaultNoop (raw : Word) (s : State) :
    exec (.defaultNoop raw) s = .next s.advancePc := by
  simp [exec, execDefaultNoop, Config.unlistedFunct3]

/-- The six things an execute phase can do: halt, jump or branch or advance, commit a register, store,
raise the register-index fault. Everything else of the state is then given by the operation's lemmas. -/
theorem exec_cases {i : Instr} {s t : State} (h : exec i s = .next t) :
    (∃ x, i = .halt x ∧ t = s.haltRun) ∨
    (∃ target, (∀ x, i ≠ .halt x) ∧ t = s.setPc target) ∨
    (∃ rd v, (∀ x, i ≠ .halt x) ∧ t = s.commitReg rd v) ∨
    (∃ rs2 rs1 imm, i = .sw rs2 rs1 imm ∧
      t = (s.memWrite (s.effectiveAddress rs1 imm) (s.readReg rs2)).advancePc) ∨
    (∃ rd rs1 rs2, i = .xor rd rs1 rs2 ∧ 32 ≤ rs2.toNat ∧
      t = s.raiseFault .regIndexOutOfRange) := by
  cases i with
  | halt x => rw [exec_halt] at h; cases h; exact .inl ⟨x, rfl, rfl⟩
  | jal rd off => rw [exec_jal] at h; cases h; exact .inr (.inl ⟨_, by simp, rfl⟩)
  | addi rd rs1 imm => rw [exec_addi] at h; cases h; exact .inr (.inr (.inl ⟨_, _, by simp, rfl⟩))
  | slli rd rs1 imm => rw [exec_slli] at h; cases h; exact .inr (.inr (.inl ⟨_, _, by simp, rfl⟩))
  | ori rd rs1 imm => rw [exec_ori] at h; cases h; exact .inr (.inr (.inl ⟨_, _, by simp, rfl⟩))
  | xor rd rs1 rs2 =>
    rcases Nat.lt_or_ge rs2.toNat 32 with hlt | hge
    · rw [exec_xor_of_lt _ _ hlt] at h; cases h; exact .inr (.inr (.inl ⟨_, _, by simp, rfl⟩))
    · rw [exec_xor_of_ge _ _ hge] at h; cases h
      exact .inr (.inr (.inr (.inr ⟨rd, rs1, rs2, rfl, hge, rfl⟩)))
  | lw rd rs1 imm => rw [exec_lw] at h; cases h; exact .inr (.inr (.inl ⟨_, _, by simp, rfl⟩))
  | sw rs2 rs1 imm =>
    rw [exec_sw] at h; cases h; exact .inr (.inr (.inr (.inl ⟨rs2, rs1, imm, rfl, rfl⟩)))
  | lui rd imm => rw [exec_lui] at h; cases h; exact .inr (.inr (.inl ⟨_, _, by simp, rfl⟩))
  | auipc rd imm => rw [exec_auipc] at h; cases h; exact .inr (.inr (.inl ⟨_, _, by simp, rfl⟩))
  | beq rs1 rs2 off =>
    rw [exec_beq] at h; cases h; refine .inr (.inl ?_)
    cases s.readReg rs1 == s.readReg rs2
    · exact ⟨_, by simp, rfl⟩
    · exact ⟨_, by simp, rfl⟩
  | bne rs1 rs2 off =>
    rw [exec_bne] at h; cases h; refine .inr (.inl ?_)
    cases s.readReg rs1 == s.readReg rs2
    · exact ⟨_, by simp, rfl⟩
    · exact ⟨_, by simp, rfl⟩
  | defaultNoop raw =>
    rw [exec_defaultNoop] at h; cases h; exact .inr (.inl ⟨_, by simp, rfl⟩)

end Sys2Proof.Machine
end

