-- ==== Sys2Proof/Laws/HostOps.lean ====
section
/-! SUPPORT. What the host's preload and boot do, said once. -/

namespace Sys2Proof.Machine

/-! ## Loading entries -/

/-- Loading entries changes the store and the write cursor alone. -/
theorem State.loadEntries_fields (s : State) (es : List Entry) :
    (s.loadEntries es).regs = s.regs ∧ (s.loadEntries es).pc = s.pc ∧
      (s.loadEntries es).runState = s.runState ∧ (s.loadEntries es).base = s.base := by
  induction es generalizing s with
  | nil => exact ⟨rfl, rfl, rfl, rfl⟩
  | cons e rest ih => exact ih (s.loadEntry e)

/-- The store address of an entry: its key minus `BASE` (20_memory R33). -/
theorem State.loadEntry_memRead_ne (s : State) (e : Entry) {a : Word}
    (h : a ≠ BitVec.ofNat 32 e.1 - s.base) : (s.loadEntry e).memRead a = s.memRead a :=
  Memory.read_write_ne _ _ h

theorem State.loadEntry_memRead_same {s : State} (hm : s.mem.wf) (e : Entry) :
    (s.loadEntry e).memRead (BitVec.ofNat 32 e.1 - s.base) = BitVec.ofNat 32 e.2 :=
  Memory.read_write_same hm _ _

/-- A cell that is no entry's reads as before. -/
theorem State.loadEntries_memRead_ne (s : State) (es : List Entry) {a : Word}
    (h : ∀ e ∈ es, a ≠ BitVec.ofNat 32 e.1 - s.base) : (s.loadEntries es).memRead a = s.memRead a := by
  induction es generalizing s with
  | nil => rfl
  | cons e rest ih =>
    refine (ih (s.loadEntry e) fun d hd => h d (by simp [hd])).trans ?_
    exact s.loadEntry_memRead_ne e (h e (by simp))

/-- Loading one list after another is loading them joined. -/
theorem State.loadEntries_append (s : State) (es fs : List Entry) :
    s.loadEntries (es ++ fs) = (s.loadEntries es).loadEntries fs := by
  induction es generalizing s with
  | nil => rfl
  | cons e rest ih => exact ih (s.loadEntry e)

/-! ## The base -/

theorem lowestKey_le_first (first : Nat) (es : List Entry) : lowestKey first es ≤ first := by
  induction es generalizing first with
  | nil => exact Nat.le_refl _
  | cons e rest ih => exact Nat.le_trans (ih _) (Nat.min_le_left _ _)

theorem lowestKey_le_mem (first : Nat) (es : List Entry) : ∀ e ∈ es, lowestKey first es ≤ e.1 := by
  induction es generalizing first with
  | nil => simp
  | cons d rest ih =>
    intro e he
    rcases List.mem_cons.mp he with rfl | he
    · exact Nat.le_trans (lowestKey_le_first (min first e.1) rest) (Nat.min_le_right _ _)
    · exact ih _ e he

/-- The lowest key is a key of the mapping. -/
theorem lowestKey_mem (first : Nat) (es : List Entry) :
    lowestKey first es = first ∨ ∃ e ∈ es, lowestKey first es = e.1 := by
  induction es generalizing first with
  | nil => exact .inl rfl
  | cons d rest ih =>
    have hc : lowestKey first (d :: rest) = lowestKey (min first d.1) rest := rfl
    rcases ih (min first d.1) with h | ⟨e, he, h⟩
    · rcases Nat.le_total first d.1 with hl | hl
      · exact .inl (by rw [hc, h, Nat.min_eq_left hl])
      · exact .inr ⟨d, by simp, by rw [hc, h, Nat.min_eq_right hl]⟩
    · exact .inr ⟨e, by simp [he], by rw [hc, h]⟩

/-! ## Boot -/

/-- A boot that completes: the mappings passed the host's checks, and the state is a cleared store with
every entry loaded at its key minus the lowest instruction key, then a run start. -/
theorem State.boot_next {s t : State} {instrs data : List Entry} (h : s.boot instrs data = .next t) :
    ∃ first rest, instrs = first :: rest ∧ instrs.all entryOk = true ∧ data.all entryOk = true ∧
      (∀ d ∈ data, (BitVec.ofNat 32 (lowestKey first.1 rest)).toNat ≤ d.1) ∧
      t = (State.loadEntries
        { s.memClear with base := BitVec.ofNat 32 (lowestKey first.1 rest) }
        (instrs ++ data)).runStart := by
  cases instrs with
  | nil => simp [State.boot, State.loadInstructions] at h
  | cons first rest =>
    refine ⟨first, rest, rfl, ?_⟩
    simp only [State.boot, State.loadInstructions] at h
    split at h
    · next s1 h1 =>
      split at h1
      · next hok =>
        cases h1
        split at h
        · next s2 h2 =>
          simp only [State.loadData] at h2
          split at h2
          · next hd =>
            split at h2
            · next hb =>
              cases h2
              cases h
              refine ⟨hok, hd, fun d hm => ?_, by rw [State.loadEntries_append]⟩
              have := List.all_eq_true.mp hb d hm
              rw [(State.loadEntries_fields _ _).2.2.2] at this
              exact of_decide_eq_true this
            · cases h2
          · cases h2
        · cases h
        · cases h
      · cases h1
    · cases h
    · cases h

end Sys2Proof.Machine
end

