-- ==== Sys2Proof/Laws/PerInstr.lean ====
section
/-! SUPPORT. The statement made for every instruction, one lemma per constructor: the encoder's word of a
well-formed instruction selects that instruction's own case of the opcode map (30_encoding R49), and no
case for a default no-op (R58). -/

namespace Sys2Proof.Laws

/-- The encoder's word selects the instruction's own case. -/
def EncodeSelects.Statement (i : Instr) : Prop := i.wellFormed = true → select (encode i) = i.case?

theorem EncodeSelects.halt (x : BitVec 25) : EncodeSelects.Statement (.halt x) := fun _ => by
  unfold select
  rw [opcodeOf_encode_halt]; rfl

theorem EncodeSelects.jal (rd : RegIdx) (off : BitVec 20) :
    EncodeSelects.Statement (.jal rd off) := fun _ => by
  unfold select encode
  rw [opcodeOf_encodeJ]; rfl

theorem EncodeSelects.addi (rd rs1 : RegIdx) (imm : BitVec 12) :
    EncodeSelects.Statement (.addi rd rs1 imm) := fun _ => by
  unfold select encode
  rw [opcodeOf_encodeI, funct3Of_encodeI]; rfl

theorem EncodeSelects.slli (rd rs1 : RegIdx) (imm : BitVec 12) :
    EncodeSelects.Statement (.slli rd rs1 imm) := fun _ => by
  unfold select encode
  rw [opcodeOf_encodeI, funct3Of_encodeI]; rfl

theorem EncodeSelects.ori (rd rs1 : RegIdx) (imm : BitVec 12) :
    EncodeSelects.Statement (.ori rd rs1 imm) := fun _ => by
  unfold select encode
  rw [opcodeOf_encodeI, funct3Of_encodeI]; rfl

theorem EncodeSelects.xor (rd rs1 : RegIdx) (rs2 : WideIdx) :
    EncodeSelects.Statement (.xor rd rs1 rs2) := fun _ => by
  unfold select encode
  rw [encodeR_eq_encodeI, opcodeOf_encodeI, funct3Of_encodeI]; rfl

theorem EncodeSelects.lw (rd rs1 : RegIdx) (imm : BitVec 12) :
    EncodeSelects.Statement (.lw rd rs1 imm) := fun _ => by
  unfold select encode
  rw [opcodeOf_encodeI, funct3Of_encodeI]; rfl

theorem EncodeSelects.sw (rs2 rs1 : RegIdx) (imm : BitVec 12) :
    EncodeSelects.Statement (.sw rs2 rs1 imm) := fun _ => by
  unfold select encode
  rw [opcodeOf_encodeS, funct3Of_encodeS]; rfl

theorem EncodeSelects.lui (rd : RegIdx) (imm : BitVec 20) :
    EncodeSelects.Statement (.lui rd imm) := fun _ => by
  unfold select encode
  rw [opcodeOf_encodeU]; rfl

theorem EncodeSelects.auipc (rd : RegIdx) (imm : BitVec 20) :
    EncodeSelects.Statement (.auipc rd imm) := fun _ => by
  unfold select encode
  rw [opcodeOf_encodeU]; rfl

theorem EncodeSelects.beq (rs1 rs2 : RegIdx) (off : BitVec 12) :
    EncodeSelects.Statement (.beq rs1 rs2 off) := fun _ => by
  unfold select encode
  rw [opcodeOf_encodeB, funct3Of_encodeB]; rfl

theorem EncodeSelects.bne (rs1 rs2 : RegIdx) (off : BitVec 12) :
    EncodeSelects.Statement (.bne rs1 rs2 off) := fun _ => by
  unfold select encode
  rw [opcodeOf_encodeB, funct3Of_encodeB]; rfl

/-- A word of no row fails every row's mask, so no branch of the dispatch takes it. -/
theorem EncodeSelects.defaultNoop (raw : Word) : EncodeSelects.Statement (.defaultNoop raw) := by
  intro h
  have hrow : ∀ c : Case, ¬ raw &&& c.mask = c.pattern := by
    have hall := List.all_eq_true.mp h
    intro c hc
    have := hall c (by cases c <;> decide)
    simp [Case.isMatch, hc] at this
  have h1 : opcodeOf raw ≠ 115#7 := fun e => hrow .halt ((mask7F_eq_iff (by decide)).mpr e)
  have h2 : opcodeOf raw ≠ 111#7 := fun e => hrow .jal ((mask7F_eq_iff (by decide)).mpr e)
  have h3 : opcodeOf raw ≠ 55#7 := fun e => hrow .lui ((mask7F_eq_iff (by decide)).mpr e)
  have h4 : opcodeOf raw ≠ 23#7 := fun e => hrow .auipc ((mask7F_eq_iff (by decide)).mpr e)
  have k (c : Case) (f : BitVec 3) (ho : opcodeOf raw = opcodeOf c.pattern)
      (hp : c.pattern &&& 0x0000707F#32 = c.pattern) (hm : c.mask = 0x0000707F#32)
      (hc : funct3Of c.pattern = f) : ¬ funct3Of raw = f := fun hf =>
    hrow c (hm ▸ (mask707F_eq_iff hp).mpr ⟨ho, hf.trans hc.symm⟩)
  show select raw = none
  unfold select
  simp only [h1, h2, h3, h4, if_false]
  split
  · next ho =>
    rw [if_neg (k .addi 0#3 ho (by decide) rfl rfl), if_neg (k .slli 1#3 ho (by decide) rfl rfl),
      if_neg (k .ori 6#3 ho (by decide) rfl rfl)]
  · split
    · next ho => rw [if_neg (k .xor 4#3 ho (by decide) rfl rfl)]
    · split
      · next ho => rw [if_neg (k .lw 2#3 ho (by decide) rfl rfl)]
      · split
        · next ho => rw [if_neg (k .sw 2#3 ho (by decide) rfl rfl)]
        · split
          · next ho =>
            rw [if_neg (k .beq 0#3 ho (by decide) rfl rfl), if_neg (k .bne 1#3 ho (by decide) rfl rfl)]
          · rfl

end Sys2Proof.Laws
end

