-- ==== Sys2Proof/Laws/Step.lean ====
section
/-! SUPPORT. What a step does around the execute phase. -/

namespace Sys2Proof.Machine

@[simp] theorem State.resetPhase_fetchWord (s : State) : s.resetPhase.fetchWord = s.fetchWord := rfl

/-- The fetch reads the cell the pc names (40_fetch_cycle R56). -/
theorem State.fetchWord_eq (s : State) : s.fetchWord = s.memRead s.pc := rfl

/-- Before the execute phase the state differs from the step's first state in the DecodeRecord and the
class output alone. -/
theorem State.beforeExecute_eq (s : State) :
    s.beforeExecute =
      { s with dec := decodeRecord s.fetchWord, decClass := some (classify s.fetchWord) } := rfl

theorem step_running {s : State} (h : s.runState = .running) :
    step s = exec (decode s.fetchWord) s.beforeExecute := by simp [step, h]

theorem step_halted {s : State} (h : s.runState = .halted) : step s = .fault .halted := by
  simp [step, h]

theorem step_faulted {s : State} (h : s.runState = .faulted) : step s = .fault .faulted := by
  simp [step, h]

/-- A step with a next state was taken while RUNNING, by the decoded instruction. -/
theorem step_next {s t : State} (h : step s = .next t) :
    s.runState = .running ∧ exec (decode s.fetchWord) s.beforeExecute = .next t := by
  cases hs : s.runState with
  | running => exact ⟨rfl, step_running hs ▸ h⟩
  | halted => rw [step_halted hs] at h; cases h
  | faulted => rw [step_faulted hs] at h; cases h

/-- Where a word is placed, the next step runs it. -/
theorem State.withFetchWord_fetch {s : State} (hm : s.mem.wf) (nbits w : Nat) :
    (s.withFetchWord nbits w).fetchWord = tableWord nbits w :=
  Memory.read_write_same hm s.pc (tableWord nbits w)

theorem State.withFetchWord_running (s : State) (nbits w : Nat) :
    (s.withFetchWord nbits w).runState = .running := rfl

/-! ## Runs of the host's interface -/

theorem core_run_zero (s : State) : Sys2Proof.core.run 0 s = .next s :=
  Host.Core.run.eq_1 Sys2Proof.core s

/-- One more step in front of a run. -/
theorem core_run_succ {s s' : State} (h : step s = .next s') (k : Nat) :
    Sys2Proof.core.run (k + 1) s = Sys2Proof.core.run k s' := by
  have h' : Sys2Proof.core.step s = .next s' := h
  exact (Host.Core.run.eq_2 Sys2Proof.core s k).trans (by rw [h'])

/-- A run that completes took a first step. -/
theorem core_run_next {k : Nat} {s t : State} (h : Sys2Proof.core.run (k + 1) s = .next t) :
    ∃ s', step s = .next s' ∧ Sys2Proof.core.run k s' = .next t := by
  have h' := (Host.Core.run.eq_2 Sys2Proof.core s k).symm.trans h
  rcases hs : Sys2Proof.core.step s with a | r | r
  · exact ⟨a, hs, (core_run_succ hs k).symm.trans h⟩
  · rw [hs] at h'; cases h'
  · rw [hs] at h'; cases h'

end Sys2Proof.Machine
end

