-- ==== Sys2Proof/Tests/Slice0.lean ====
section
/-! SUPPORT. The model's own tests: words written out from the spec's encodings, vectors of
95_test_vectors.md (named in each comment), the well-formedness smoke test, and for each statement with
hypotheses a witness that meets them. -/

open Sys2Proof Sys2Proof.Machine Sys2Proof.Claims

namespace Sys2Proof.Tests

/-! ## Helpers -/

/-- A started state: registers and cells set, the pc, and a word in the cell it names. -/
def start (pc : Word) (regs : List (RegIdx × Word)) (cells : List (Word × Word)) (raw : Word) : State :=
  let s := regs.foldl (fun s r => s.writeReg r.1 r.2) State.reset
  let s := cells.foldl (fun s c => s.memWrite c.1 c.2) s
  (s.setPc pc).memWrite pc raw

/-- The next state satisfies a check. -/
def after (s : State) (check : State → Bool) : Bool :=
  match step s with
  | .next t => check t
  | .fault _ | .refused _ => false

/-- RUNNING at `pc` with register `r` holding `v`. -/
def runs (pc : Word) (r : RegIdx) (v : Word) (t : State) : Bool :=
  t.runState == .running && t.pc == pc && t.readReg r == v

/-! ## Well-formedness -/

/-- A default no-op may hold a word of no row: word 0 is one (30_encoding R51). -/
theorem test_wellFormed_zero_word : (Instr.defaultNoop 0#32).wellFormed = true := by decide

/-- The one check: a default no-op that holds a row's word is refused, for every row. -/
theorem test_illFormed_default_of_each_row :
    Case.all.all (fun c => !(Instr.defaultNoop c.pattern).wellFormed) = true := by decide

/-! ## Decoding: one word per constructor, field by field from R41 to R46 -/

/-- R42: imm 10, rs1 10, funct3 0, rd 10, opcode 19. -/
theorem test_decode_addi :
    decode 0b000000001010_01010_000_01010_0010011#32 = .addi 10#5 10#5 10#12 := by decide

/-- R42: imm with `raw[31:25]` = 0x20 and shamt 4, rs1 11, funct3 1, rd 11. -/
theorem test_decode_slli :
    decode 0b010000000100_01011_001_01011_0010011#32 = .slli 11#5 11#5 0x404#12 := by decide

/-- R42: imm -1, rs1 0, funct3 6, rd 10. -/
theorem test_decode_ori :
    decode 0b111111111111_00000_110_01010_0010011#32 = .ori 10#5 0#5 0xFFF#12 := by decide

/-- R41: rs2 of 12 bits 0x40C, rs1 11, funct3 4, rd 13, opcode 51. -/
theorem test_decode_xor :
    decode 0b010000001100_01011_100_01101_0110011#32 = .xor 13#5 11#5 1036#12 := by decide

/-- R42: imm -4, rs1 0, funct3 2, rd 10, opcode 3. -/
theorem test_decode_lw :
    decode 0b111111111100_00000_010_01010_0000011#32 = .lw 10#5 0#5 0xFFC#12 := by decide

/-- R45: imm[11:5] 0x3F, rs2 11, rs1 0, funct3 2, imm[4:0] 0x1F, opcode 35: imm 2047. -/
theorem test_decode_sw :
    decode 0b0111111_01011_00000_010_11111_0100011#32 = .sw 11#5 0#5 0x7FF#12 := by decide

/-- R43: imm 0x80000, rd 10, opcode 55. -/
theorem test_decode_lui :
    decode 0b10000000000000000000_01010_0110111#32 = .lui 10#5 0x80000#20 := by decide

/-- R43: imm 1, rd 9, opcode 23. -/
theorem test_decode_auipc :
    decode 0b00000000000000000001_01001_0010111#32 = .auipc 9#5 1#20 := by decide

/-- R44: offset[20] 1, offset[10:1] 0x3FE, offset[11] 1, offset[19:12] 0xFF, rd 0: offset -4. -/
theorem test_decode_jal :
    decode 0b1_1111111110_1_11111111_00000_1101111#32 = .jal 0#5 0xFFFFE#20 := by decide

/-- R44: only `raw[20]` of the immediate set: offset[11], so offset 2048. -/
theorem test_decode_jal_bit11 :
    decode 0b0_0000000000_1_00000000_00000_1101111#32 = .jal 0#5 0x400#20 := by decide

/-- R46: offset[12] 1, offset[10:5] 0x3F, rs2 11, rs1 10, funct3 0, offset[4:1] 14, offset[11] 1:
offset -4. -/
theorem test_decode_beq :
    decode 0b1_111111_01011_01010_000_1110_1_1100011#32 = .beq 10#5 11#5 0xFFE#12 := by decide

/-- R46: only `raw[7]` of the immediate set: offset[11]. -/
theorem test_decode_bne :
    decode 0b0_000000_00000_00101_001_0000_1_1100011#32 = .bne 5#5 0#5 0x400#12 := by decide

/-- R47: EBREAK's word, opcode 115. -/
theorem test_decode_halt :
    decode 0b0000000000010000000000000_1110011#32 = .halt 0x2000#25 := by decide

/-- R50: opcode 3 with funct3 0. -/
theorem test_decode_unlisted_funct3 :
    decode 0b000000000000_01011_000_01010_0000011#32 = .defaultNoop 0x00058503#32 := by decide

/-- 95 §2.1, rows with the most fields: 0x40C5C6B3, 0xFEB52FA3, 0x7E000FE3, 0x800000EF. -/
theorem test_record_fields :
    (decodeRecord 0x40C5C6B3#32).rs2 = 1036#12 ∧ (decodeRecord 0xFEB52FA3#32).imm.toInt = -1 ∧
      (decodeRecord 0x7E000FE3#32).imm.toInt = 2047 ∧
      (decodeRecord 0x800000EF#32).imm.toInt = -1048576 ∧ (decodeRecord 0x00C000EF#32).rd = 0#5 := by
  decide

/-- 95 §2.1: encoders give the listed words. -/
theorem test_encode_words :
    encode (.addi 10#5 10#5 10#12) = 0x00A50513#32 ∧ encode (.sw 11#5 10#5 0x800#12) = 0x80B52023#32 ∧
      encode (.beq 10#5 11#5 4#12) = 0x00B50463#32 ∧ encode (.jal 1#5 6#20) = 0x00C000EF#32 ∧
      encode (.lui 10#5 0xFFFFF#20) = 0xFFFFF537#32 := by decide

/-- The host's question for a row: HALT's match as the opcode table numbers it. -/
theorem test_table_word : decodeTableWord 32 0x73 = some (.halt 0#25) := by decide

/-! ## One step each -/

/-- E-ADDI-2: signed overflow wraps. -/
theorem test_addi_wraps :
    after (start 0 [(5, 0x7FFFFFFF)] [] 0x00128293) (runs 4 5 0x80000000) = true := by decide

/-- E-ADDI-4: a write to x0 is discarded. -/
theorem test_addi_to_zero : after (start 0 [(10, 7)] [] 0x00550013) (runs 4 0 0) = true := by decide

/-- E-SLLI-2: shift by 31. -/
theorem test_slli_31 :
    after (start 0 [(11, 3)] [] 0x01F59593) (runs 4 11 0x80000000) = true := by decide

/-- E-SLLI-4: `raw[31:25]` is ignored. -/
theorem test_slli_ignores_high_bits :
    after (start 0 [(11, 1)] [] 0x40459593) (runs 4 11 0x10) = true := by decide

/-- E-ORI-2: the immediate is sign-extended. -/
theorem test_ori_sign_extends :
    after (start 0 [] [] 0xFFF06513) (runs 4 10 0xFFFFFFFF) = true := by decide

/-- E-XOR-1. -/
theorem test_xor :
    after (start 0 [(11, 0xF0F0F0F0), (12, 0x0FF00FF0)] [] 0x00C5C6B3) (runs 4 13 0xFF00FF00) = true := by
  decide

/-- E-XOR-4: rs2 = 1036 faults, nothing written, and the record is kept. -/
theorem test_xor_faults :
    after (start 0x20 [(11, 1), (12, 2), (13, 9)] [] 0x40C5C6B3) (fun t =>
      t.runState == .faulted && t.pc == 0x20 && t.readReg 13 == 9 &&
      t.faultRecord == some ⟨.regIndexOutOfRange, 0x20, 0x40C5C6B3⟩) = true := by decide

/-- E-LUI-2: the low 12 bits are cleared. -/
theorem test_lui : after (start 0 [(10, 0x123)] [] 0xFFFFF537) (runs 4 10 0xFFFFF000) = true := by decide

/-- E-AUIPC-1: the instruction's own address. -/
theorem test_auipc : after (start 0x10 [] [] 0x00001497) (runs 0x14 9 0x1010) = true := by decide

/-- E-AUIPC-3: the sum wraps. -/
theorem test_auipc_wraps :
    after (start 0x1000 [(10, 0x55)] [] 0xFFFFF517) (runs 0x1004 10 0) = true := by decide

/-- E-LW-3: rd = rs1, negative displacement. -/
theorem test_lw_same_register :
    after (start 0 [(10, 0x1008)] [(0x1004, 0x55)] 0xFFC52503) (runs 4 10 0x55) = true := by decide

/-- E-LW-4: an unaligned address reads its own cell. -/
theorem test_lw_unaligned :
    after (start 0 [(10, 0x1000), (12, 0x77)] [(0x1000, 0x11223344)] 0x00152603) (runs 4 12 0) = true := by
  decide

/-- E-SW-2: an unaligned store writes its own cell only. -/
theorem test_sw_unaligned :
    after (start 0 [(10, 0x1000), (11, 5)] [(0x1000, 7)] 0xFEB52FA3) (fun t =>
      t.memRead 0xFFF == 5 && t.memRead 0x1000 == 7 && t.pc == 4) = true := by decide

/-- E-SW-6: storing 0 leaves the cell reading 0, unlisted again. -/
theorem test_sw_zero :
    after (start 0 [(10, 0x300)] [(0x300, 0xABCDEF01)] 0x00052023) (fun t =>
      t.mem == { cells := [(0, 0x00052023)] }) = true := by decide

/-- E-BEQ-3: taken, backward. -/
theorem test_beq_backward :
    after (start 0x100 [(10, 0xFFFFFFFF), (11, 0xFFFFFFFF)] [] 0xFEB50EE3) (runs 0xFC 10 0xFFFFFFFF) = true := by
  decide

/-- E-BEQ-2: not taken. -/
theorem test_beq_not_taken :
    after (start 0 [(10, 3), (11, 4)] [] 0x00B50463) (runs 4 11 4) = true := by decide

/-- E-BNE-3: loop back. -/
theorem test_bne_loops : after (start 0x10 [(5, 4)] [] 0xFE029CE3) (runs 8 5 4) = true := by decide

/-- E-BNE-2: not taken. -/
theorem test_bne_not_taken :
    after (start 0 [(10, 3), (11, 3)] [] 0x00B51463) (runs 4 10 3) = true := by decide

/-- E-JAL-1: no link. -/
theorem test_jal_no_link : after (start 4 [(1, 0x55)] [] 0x00C000EF) (runs 0x10 1 0x55) = true := by decide

/-- E-JAL-3: the target wraps. -/
theorem test_jal_wraps : after (start 0 [] [] 0xFFDFF06F) (runs 0xFFFFFFFC 1 0) = true := by decide

/-- E-HALT-4: a CSR word halts, writes no rd, and passes. -/
theorem test_halt_csr_word :
    after (start 0 [(10, 1)] [] 0xC0002573) (fun t =>
      t.runState == .halted && t.pc == 0 && t.passOutput == some true) = true := by decide

/-- E-HALT-2: fail, pc unchanged; no step follows (40_fetch_cycle R60). -/
theorem test_halt_fails :
    after (start 0x24 [(10, 2)] [] 0x00000073) (fun t =>
      t.runResult == .halted false && t.pc == 0x24 && !after t (fun _ => true)) = true := by decide

/-- E-DEF-1: word 0 advances, and the pc wraps. -/
theorem test_default_wraps :
    after (start 0xFFFFFFFC [] [] 0) (fun t => runs 0 1 0 t && t.decClass == some .unimpl) = true := by
  decide

/-- E-DEF-4: ADD is a default no-op. -/
theorem test_default_add :
    after (start 0 [(11, 1), (12, 2)] [] 0x00C58533) (runs 4 10 0) = true := by decide

/-! ## The host's side -/

/-- Program P5's first two words at base 0x400 (key minus `BASE`, 20_memory R33). -/
theorem test_boot :
    (match State.reset.boot [(0x404, 0x40C5C6B3), (0x400, 0x00100593)] [(0x408, 9)] with
     | .next t => t.memRead 0 == 0x00100593 && t.memRead 4 == 0x40C5C6B3 && t.memRead 8 == 9 &&
        t.base == 0x400 && t.pc == 0
     | .fault _ | .refused _ => false) = true := by decide

/-- Names and operands of 30_encoding R53: `beq a0, a1, 8` is 0x00B50463. -/
theorem test_assemble_beq :
    (assemble? (.beq 10#5 11#5 8)).map encode = some 0x00B50463#32 ∧ regIndex? "a0" = some 10#5 ∧
      regIndex? "fp" = some 8#5 ∧ regName 31#5 = "t6" := by decide

/-! ## Witnesses: a state and operands that meet each statement's hypotheses -/

/-- A RUNNING state about to run a word. -/
def ready (raw : Word) : State := start 0 [] [] raw

theorem witness_DecodeOfEncode : (Instr.defaultNoop 0x00058503#32).wellFormed = true := by decide

theorem witness_SelectIsTheOpcodeMap :
    (Case.sw, 0x0000707F#32, 0x00002023#32) ∈ opcodeMap ∧
    0xFEB52FA3#32 &&& 0x0000707F#32 = 0x00002023#32 ∧
    (op 0xFEB52FA3#32 = op 0x00002023#32 ∧ f3 0xFEB52FA3#32 = f3 0x00002023#32) ∧
    (op 0x00001537#32 = op 0xFFFFF537#32 ∧ op 0x00001537#32 = 55#7) := by decide

theorem witness_RecordOfIType :
    (op 0x80000513#32 = 19#7 ∧ iF 0x80000513#32 = 0x800#12) ∧
    (op 0x7FF02503#32 = 3#7 ∧ iF 0x7FF02503#32 = 0x7FF#12) := by decide

theorem witness_RecordOfRType :
    (op 0x01F5C6B3#32 = 51#7 ∧ (0x01F5C6B3#32 : Word).extractLsb' 25 7 = 0#7) ∧
    (op 0x0205C6B3#32 = 51#7 ∧ (0x0205C6B3#32 : Word).extractLsb' 25 7 ≠ 0#7) := by decide

theorem witness_RecordOfUType : op 0x80000537#32 = 55#7 ∧ op 0xFFFFF517#32 = 23#7 := by decide

theorem witness_RecordOfJType : op 0x800000EF#32 = 111#7 ∧ op 0x7FFFF06F#32 = 111#7 := by decide

theorem witness_RecordOfSType : op 0x80B52023#32 = 35#7 ∧ op 0x7EB02FA3#32 = 35#7 := by decide

theorem witness_RecordOfBType : op 0x80000063#32 = 99#7 ∧ op 0x7E000FE3#32 = 99#7 := by decide

theorem witness_RecordOfSystemAndUnlisted :
    op 0xC0002573#32 = 115#7 ∧
    op 0x00008067#32 ∉ [115#7, 51#7, 55#7, 23#7, 3#7, 19#7, 111#7, 35#7, 99#7] := by decide

theorem witness_HaltSetsHalted : op 0x00100073#32 = 115#7 := by decide

theorem witness_JalJumpsWithoutLink : op 0x00C000EF#32 = 111#7 := by decide

theorem witness_AddiAddsImmediate : op 0x00550013#32 = 19#7 ∧ f3 0x00550013#32 = 0#3 := by decide

theorem witness_SlliShiftsLeft : op 0x40459593#32 = 19#7 ∧ f3 0x40459593#32 = 1#3 := by decide

theorem witness_OriOrsImmediate : op 0xFFF06513#32 = 19#7 ∧ f3 0xFFF06513#32 = 6#3 := by decide

/-- Both sides of the boundary: rs2 31 and 32. -/
theorem witness_XorOrFaults :
    (op 0x01F5C6B3#32 = 51#7 ∧ f3 0x01F5C6B3#32 = 4#3) ∧ (31#12 : WideIdx).toNat < 32 ∧
    32 ≤ (32#12 : WideIdx).toNat := by decide

theorem witness_LuiLoadsUpper : op 0xFFFFF537#32 = 55#7 := by decide

theorem witness_AuipcAddsPc : op 0x00001497#32 = 23#7 := by decide

theorem witness_LwLoadsCell : op 0xFFC52503#32 = 3#7 ∧ f3 0xFFC52503#32 = 2#3 := by decide

/-- The store's own address, and the address next to it. -/
theorem witness_SwStoresCell :
    (op 0xFEB52FA3#32 = 35#7 ∧ f3 0xFEB52FA3#32 = 2#3) ∧ (ready 0xFEB52FA3).mem.wf ∧
    (1#32 : Word) ≠ (ready 0xFEB52FA3).effectiveAddress 0#5 0#12 := by decide

theorem witness_BeqBranchesIfEqual : op 0x00B50463#32 = 99#7 ∧ f3 0x00B50463#32 = 0#3 := by decide

theorem witness_BneBranchesIfNotEqual : op 0xFE029CE3#32 = 99#7 ∧ f3 0xFE029CE3#32 = 1#3 := by decide

theorem witness_DefaultOnlyAdvances :
    ∀ row ∈ opcodeMap, 0x00C58533#32 &&& row.2.1 ≠ row.2.2 := by decide

theorem witness_StepRunsDecoded :
    (ready 0x00058503).runState = .running ∧
    decode ((ready 0x00058503).memRead (ready 0x00058503).pc) = .defaultNoop 0x00058503#32 ∧
    (Instr.defaultNoop 0x00058503#32).wellFormed = true := by decide

theorem witness_TerminalStatesHaveNoStep :
    (ready 0).haltRun.runState = .halted ∧
    ((ready 0).raiseFault .regIndexOutOfRange).runState = .faulted ∧
    (ready 0).runState = .running := by decide

theorem witness_NextPcTable : (ready 0x40C5C6B3).runState = .running := by decide

theorem witness_StepOutcomes : (ready 0x00000073).runState = .running := by decide

theorem witness_HaltedOnlyByOpcode115 : ∃ t, step (ready 0x00100073) = .next t := ⟨_, rfl⟩

/-- A step that faults, so that the second clause's premise is met as well. -/
theorem witness_FaultedOnlyByWideXor :
    ∃ t, step (ready 0x0205C6B3) = .next t ∧ t.runState = .faulted := ⟨_, rfl, rfl⟩

/-- A run of one step, on an XOR word that does not fault. -/
theorem witness_RunWithoutWideXorNeverFaults :
    NotFaulted (ready 0x01F5C6B3) ∧
    (∀ (j : Nat) (u : State), j < 1 → Sys2Proof.core.run j (ready 0x01F5C6B3) = .next u →
      FaultFreeWord (u.memRead u.pc)) ∧
    ∃ t, Sys2Proof.core.run 1 (ready 0x01F5C6B3) = .next t := by
  refine ⟨by unfold NotFaulted; decide, fun j u hj h => ?_, _, rfl⟩
  obtain rfl : j = 0 := by omega
  cases h
  exact fun _ => by decide

/-- A store; a branch (no result); a register result (no store). -/
theorem witness_StepFrame :
    (∃ t, step (ready 0x00B52023) = .next t) ∧ select 0x00B52023#32 = some .sw ∧
    (5#32 : Word) ≠ (ready 0x00B52023).effectiveAddress (rs1F 0x00B52023#32) (sF 0x00B52023#32) ∧
    (∃ t, step (ready 0x00B50463) = .next t) ∧ ¬ hasResult (select 0x00B50463#32) :=
  ⟨⟨_, rfl⟩, by decide, by decide, ⟨_, rfl⟩, by unfold hasResult; decide⟩

/-- A RUNNING state with register 10, a cell and a placed word. -/
theorem started_stateInv : StateInv (start 0x10 [(10, 7)] [(0x20, 9)] 0x00A50513) where
  zeroSlot := by unfold ZeroSlot; decide
  memWf := by decide
  decodeAgrees := ⟨by decide, .inr ⟨by decide, by decide⟩⟩
  haltAgrees := by unfold HaltAgrees; decide
  faultAgrees := ⟨by decide, fun _ h => by cases h⟩

theorem witness_StepKeepsInvariant :
    StateInv (start 0x10 [(10, 7)] [(0x20, 9)] 0x00A50513) ∧
    ∃ t, step (start 0x10 [(10, 7)] [(0x20, 9)] 0x00A50513) = .next t := ⟨started_stateInv, _, rfl⟩

theorem witness_StepKeepsPcParity : ∃ t, step (ready 0x00B50363) = .next t := ⟨_, rfl⟩

/-- Two states that differ in a cell LW does not read, for an LW word. -/
theorem witness_StepReadsOnlyItsOperands :
    (∃ t, step (ready 0x00002603) = .next t) ∧
    (start 0 [] [(8, 1)] 0x00002603).runState = .running ∧
    (start 0 [] [(8, 1)] 0x00002603).regs = (ready 0x00002603).regs ∧
    (start 0 [] [(8, 1)] 0x00002603).pc = (ready 0x00002603).pc ∧
    (start 0 [] [(8, 1)] 0x00002603).memRead 0 = (ready 0x00002603).memRead 0 ∧
    decode ((ready 0x00002603).memRead 0) = .lw 12#5 0#5 0#12 ∧
    (ready 0x00002603).effectiveAddress 0#5 0#12 = 0#32 :=
  ⟨⟨_, rfl⟩, by decide, by decide, by decide, by decide, by decide, by decide⟩

theorem witness_ClassOutputHasNoEffect :
    (∃ t, exec (.addi 1#5 0#5 1#12) (ready 0) = .next t) ∧ ∃ t, step (ready 0x00A50513) = .next t :=
  ⟨⟨_, rfl⟩, _, rfl⟩

theorem witness_DecodeRecordIsRebuilt : ∃ t, step (ready 0x00A50513) = .next t := ⟨_, rfl⟩

theorem witness_PlacedWordRunsNext :
    State.reset.mem.wf ∧ decodeTableWord 32 0x37 = some (.lui 0#5 0#20) := by decide

theorem witness_ZeroRegisterIsHardwired : (31#5 : RegIdx) ≠ 0#5 ∧ (1#5 : RegIdx) ≠ 31#5 := by decide

theorem witness_WideIndexHasNoRegister :
    (31#12 : WideIdx) = (31#5 : RegIdx).setWidth 12 ∧ 32 ≤ (32#12 : WideIdx).toNat := by decide

theorem witness_LoadAfterStore : (ready 0).mem.wf ∧ (12#5 : RegIdx) ≠ 0#5 := by decide

/-- `sw a0, 4(zero)` at address 0. -/
theorem witness_StoredWordIsFetchedNext :
    (ready 0x00A02223).runState = .running ∧ (ready 0x00A02223).mem.wf ∧
    decode ((ready 0x00A02223).memRead (ready 0x00A02223).pc) = .sw 10#5 0#5 4#12 ∧
    (ready 0x00A02223).effectiveAddress 0#5 4#12 = (ready 0x00A02223).pc + 4#32 := by decide

theorem witness_CanonicalMemoryIsUnique :
    (ready 7).mem.wf ∧ ∀ a : Word, (ready 7).mem.read a = (ready 7).mem.read a :=
  ⟨by decide, fun _ => rfl⟩

theorem witness_BootPlacesImage :
    (∃ t, State.reset.boot [(0x400, 0x73)] [(0x404, 9)] = .next t) ∧
    (([(0x400, 0x73)] ++ [(0x404, 9)] : List Entry).map Prod.fst).Nodup ∧
    ∀ e ∈ ([(0x400, 0x73)] ++ [(0x404, 9)] : List Entry), (8#32 : Word) ≠ BitVec.ofNat 32 e.1 - 0x400#32 :=
  ⟨⟨_, rfl⟩, by decide, by decide⟩

/-- One list pair for each clause, at the boundaries: no instructions, a key of 2^32, a data key one below
`BASE`, a data key at `BASE`. -/
theorem witness_BootCompletesOrRefuses :
    ([] : List Entry) = [] ∧
    (∃ e ∈ ([(2 ^ 32, 1)] ++ [] : List Entry), ¬ (e.1 < 2 ^ 32 ∧ e.2 < 2 ^ 32)) ∧
    ((∀ e ∈ ([(8, 1)] ++ [(7, 1)] : List Entry), e.1 < 2 ^ 32 ∧ e.2 < 2 ^ 32) ∧
      ∃ d ∈ ([(7, 1)] : List Entry), ∀ e ∈ ([(8, 1)] : List Entry), d.1 < e.1) ∧
    ((∀ e ∈ ([(8, 1)] ++ [(8, 1)] : List Entry), e.1 < 2 ^ 32 ∧ e.2 < 2 ^ 32) ∧
      ∀ d ∈ ([(8, 1)] : List Entry), ∃ e ∈ ([(8, 1)] : List Entry), e.1 ≤ d.1) := by decide

theorem witness_PassSignal :
    (ready 0).haltRun.runState = .halted ∧ (ready 0).runState ≠ .halted := by decide

/-- The ends of both ranges, on registers that hold equal values and on registers that do not. -/
theorem witness_WrittenOffsetIsTheByteOffset :
    ((-1048576 : Int) % 2 = 0 ∧ (1048574 : Int) % 2 = 0) ∧
    ((-4096 : Int) % 2 = 0 ∧ (4094 : Int) % 2 = 0) ∧
    (ready 0).readReg 10#5 = (ready 0).readReg 11#5 ∧
    (start 0 [(10, 1)] [] 0).readReg 10#5 ≠ (start 0 [(10, 1)] [] 0).readReg 11#5 := by decide

/-- The ends of the short range, and the first value past it. -/
theorem witness_LiLoadsConstant :
    (10#5 : RegIdx) ≠ 0#5 ∧
    (-2048 ≤ (0xFFFFF800#32 : Word).toInt ∧ (0xFFFFF800#32 : Word).toInt ≤ 2047) ∧
    (-2048 ≤ (0x7FF#32 : Word).toInt ∧ (0x7FF#32 : Word).toInt ≤ 2047) ∧
    ¬ (-2048 ≤ (0x800#32 : Word).toInt ∧ (0x800#32 : Word).toInt ≤ 2047) := by decide

theorem witness_LaLoadsAddress : (10#5 : RegIdx) ≠ 0#5 := by decide

end Sys2Proof.Tests
end

section
/-! What one step can answer (00_scope R11). -/

namespace Sys2Proof.Machine

/-- Every execute phase completes: no instruction stops the machine or is refused. -/
theorem exec_total (i : Instr) (s : State) : ∃ t, exec i s = .next t := by
  cases i with
  | halt x => exact ⟨_, exec_halt x s⟩
  | jal rd off => exact ⟨_, exec_jal rd off s⟩
  | addi rd rs1 imm => exact ⟨_, exec_addi rd rs1 imm s⟩
  | slli rd rs1 imm => exact ⟨_, exec_slli rd rs1 imm s⟩
  | ori rd rs1 imm => exact ⟨_, exec_ori rd rs1 imm s⟩
  | xor rd rs1 rs2 =>
    rcases Nat.lt_or_ge rs2.toNat 32 with hlt | hge
    · exact ⟨_, exec_xor_of_lt rd rs1 hlt s⟩
    · exact ⟨_, exec_xor_of_ge rd rs1 hge s⟩
  | lw rd rs1 imm => exact ⟨_, exec_lw rd rs1 imm s⟩
  | sw rs2 rs1 imm => exact ⟨_, exec_sw rs2 rs1 imm s⟩
  | lui rd imm => exact ⟨_, exec_lui rd imm s⟩
  | auipc rd imm => exact ⟨_, exec_auipc rd imm s⟩
  | beq rs1 rs2 off => exact ⟨_, exec_beq rs1 rs2 off s⟩
  | bne rs1 rs2 off => exact ⟨_, exec_bne rs1 rs2 off s⟩
  | defaultNoop raw => exact ⟨_, exec_defaultNoop raw s⟩

/-- From RUNNING the execute phase always runs, and completes (40_fetch_cycle R55). -/
theorem step_total_of_running {s : State} (h : s.runState = .running) :
    ∃ t, exec (decode s.fetchWord) s.beforeExecute = .next t ∧ step s = .next t := by
  obtain ⟨t, ht⟩ := exec_total (decode s.fetchWord) s.beforeExecute
  exact ⟨t, ht, (step_running h).trans ht⟩

/-- Settles O28: the execute phase completes, and of the things it can do (`exec_cases`) only a halt and
the register-index fault leave RUNNING. -/
theorem stepOutcomes : Obligations.StepOutcomes := by
  unfold Obligations.StepOutcomes
  intro s hrun
  obtain ⟨t, hexec, hstep⟩ := step_total_of_running hrun
  refine ⟨t, hstep, ?_⟩
  obtain ⟨_, -, rfl⟩ | ⟨target, -, rfl⟩ | ⟨rd, v, -, rfl⟩ | ⟨rs2, rs1, imm, -, rfl⟩ |
    ⟨_, _, _, -, -, rfl⟩ := exec_cases hexec
  · have halts : s.beforeExecute.haltRun.runState = .halted := State.haltRun_runState _
    exact .inr (.inl ⟨halts, by simp⟩)
  · exact .inl (by simp [hrun])
  · exact .inl (by simp [hrun])
  · exact .inl (by simp [hrun])
  · have faults : (s.beforeExecute.raiseFault .regIndexOutOfRange).runState = .faulted :=
      State.raiseFault_runState _ _
    exact .inr (.inr ⟨faults, by simp [State.fetchWord_eq]⟩)

end Sys2Proof.Machine
end

section
/-! What a step keeps: the decoder's outputs of the fetched word, the machine's invariant, and the frame
of a whole step (10_state R13, R17, R22). -/

namespace Sys2Proof.Machine

open Sys2Proof.Claims

/-! ## What a decoded instruction says of its word -/

/-- The System opcode alone selects HALT (30_encoding R49). -/
theorem select_eq_halt_iff (raw : Word) : select raw = some .halt ↔ opcodeOf raw = 115#7 := by
  unfold select
  by_cases h : opcodeOf raw = 115#7
  · simp [h]
  · simp only [h, if_false, iff_false]
    repeat' split
    all_goals simp

theorem opcodeOf_of_decode_halt {raw : Word} {x : BitVec 25} (h : decode raw = .halt x) :
    opcodeOf raw = 115#7 := by
  rw [← select_eq_halt_iff, ← case?_decode, h]; rfl

theorem opcodeOf_ne_of_decode_ne_halt {raw : Word} (h : ∀ x, decode raw ≠ .halt x) :
    opcodeOf raw ≠ 115#7 := by
  intro ho
  refine h (systemRestOf raw) ?_
  unfold decode
  rw [(select_eq_halt_iff raw).mpr ho]

theorem select_of_decode_xor {raw : Word} {rd rs1 : RegIdx} {rs2 : WideIdx}
    (h : decode raw = .xor rd rs1 rs2) : select raw = some .xor ∧ rs2 = wideRs2Of raw := by
  have hsel : select raw = some .xor := by rw [← case?_decode, h]; rfl
  unfold decode at h
  rw [hsel] at h
  cases h
  exact ⟨hsel, rfl⟩

theorem select_of_decode_sw {raw : Word} {rs2 rs1 : RegIdx} {imm : BitVec 12}
    (h : decode raw = .sw rs2 rs1 imm) :
    select raw = some .sw ∧ rs1 = rs1Of raw ∧ imm = sFieldOf raw := by
  have hsel : select raw = some .sw := by rw [← case?_decode, h]; rfl
  unfold decode at h
  rw [hsel] at h
  cases h
  exact ⟨hsel, rfl, rfl⟩

/-- The 12-bit rs2 names no register exactly when the bits above its low five are not all 0
(30_encoding R41). -/
theorem wideRs2Of_ge_iff (raw : Word) :
    32 ≤ (wideRs2Of raw).toNat ↔ raw.extractLsb' 25 7 ≠ 0#7 := by
  have hraw := raw.isLt
  simp only [wideRs2Of, ne_eq, ← BitVec.toNat_inj, BitVec.extractLsb'_toNat, BitVec.toNat_ofNat,
    Nat.shiftRight_eq_div_pow]
  omega

/-! ## What an execute phase keeps -/

/-- No execute phase touches the DecodeRecord, the class output, `BASE` or the write cursor. -/
theorem exec_sameRest {i : Instr} {s t : State} (h : exec i s = .next t) : SameRest s t := by
  obtain ⟨_, -, rfl⟩ | ⟨target, -, rfl⟩ | ⟨rd, v, -, rfl⟩ | ⟨rs2, rs1, imm, -, rfl⟩ |
    ⟨_, _, _, -, -, rfl⟩ := exec_cases h
  · exact ⟨rfl, rfl, rfl, rfl⟩
  · exact ⟨rfl, rfl, rfl, rfl⟩
  · obtain ⟨-, -, -, -, hrest⟩ := s.commitReg_spec rd v
    exact hrest
  · exact ⟨rfl, rfl, rfl, rfl⟩
  · exact ⟨rfl, rfl, rfl, rfl⟩

/-- No execute phase writes slot 0 of the register array (10_state R13). -/
theorem exec_zeroSlot {i : Instr} {s t : State} (h : exec i s = .next t) (hz : ZeroSlot s) :
    ZeroSlot t := by
  obtain ⟨_, -, rfl⟩ | ⟨target, -, rfl⟩ | ⟨rd, v, -, rfl⟩ | ⟨rs2, rs1, imm, -, rfl⟩ |
    ⟨_, _, _, -, -, rfl⟩ := exec_cases h
  · exact hz
  · exact hz
  · exact (s.writeReg_zeroSlot rd v).trans hz
  · exact hz
  · exact hz

/-- Every execute phase keeps the store's canonical form. -/
theorem exec_memWf {i : Instr} {s t : State} (h : exec i s = .next t) (hm : s.mem.wf) : t.mem.wf := by
  obtain ⟨_, -, rfl⟩ | ⟨target, -, rfl⟩ | ⟨rd, v, -, rfl⟩ | ⟨rs2, rs1, imm, -, rfl⟩ |
    ⟨_, _, _, -, -, rfl⟩ := exec_cases h
  · exact hm
  · exact hm
  · rw [State.commitReg_mem]; exact hm
  · exact State.memWrite_wf hm _ _
  · exact hm

/-- The store changes for SW alone, and then in the one cell at its effective address (20_memory R26). -/
theorem exec_mem {i : Instr} {s t : State} (h : exec i s = .next t) :
    SameMem s t ∨ ∃ rs2 rs1 imm, i = .sw rs2 rs1 imm ∧
      ∀ a : Word, a ≠ s.effectiveAddress rs1 imm → t.memRead a = s.memRead a := by
  obtain ⟨_, -, rfl⟩ | ⟨target, -, rfl⟩ | ⟨rd, v, -, rfl⟩ | ⟨rs2, rs1, imm, rfl, rfl⟩ |
    ⟨_, _, _, -, -, rfl⟩ := exec_cases h
  · exact .inl fun _ => rfl
  · exact .inl fun _ => rfl
  · exact .inl fun a => s.commitReg_memRead rd v a
  · exact .inr ⟨rs2, rs1, imm, rfl, fun a ha => s.memRead_memWrite_ne _ ha⟩
  · exact .inl fun _ => rfl

theorem State.commitReg_sameRegsBut (s : State) (rd : RegIdx) (v : Word) :
    SameRegsBut rd s (s.commitReg rd v) := by
  obtain ⟨⟨-, -, hframe⟩, -⟩ := s.commitReg_spec rd v
  exact hframe

theorem State.branchIf_sameRegs (s : State) (taken : Bool) (off : BitVec 12) :
    SameRegs s (s.branchIf taken off) := by
  obtain ⟨-, hregs, -⟩ := s.branchIf_spec taken off
  exact hregs

/-- A decoded instruction changes no register, or is of a case with a result and changes at most the one
its word's rd field names (10_state R22). -/
theorem exec_decode_regs {raw : Word} {s t : State} (h : exec (decode raw) s = .next t) :
    SameRegs s t ∨ hasResult (select raw) ∧ SameRegsBut (rdOf raw) s t := by
  have hcommit := s.commitReg_sameRegsBut (rdOf raw)
  unfold decode at h
  cases hsel : select raw with
  | none => rw [hsel, exec_defaultNoop] at h; cases h; exact .inl fun _ => rfl
  | some c =>
    rw [hsel] at h
    cases c with
    | halt => rw [exec_halt] at h; cases h; exact .inl fun _ => rfl
    | jal => rw [exec_jal] at h; cases h; exact .inl fun _ => rfl
    | addi => rw [exec_addi] at h; cases h; exact .inr ⟨by simp [hasResult], hcommit _⟩
    | slli => rw [exec_slli] at h; cases h; exact .inr ⟨by simp [hasResult], hcommit _⟩
    | ori => rw [exec_ori] at h; cases h; exact .inr ⟨by simp [hasResult], hcommit _⟩
    | xor =>
      rcases Nat.lt_or_ge (wideRs2Of raw).toNat 32 with hlt | hge
      · rw [exec_xor_of_lt _ _ hlt] at h; cases h
        exact .inr ⟨by simp [hasResult], hcommit _⟩
      · rw [exec_xor_of_ge _ _ hge] at h; cases h; exact .inl fun _ => rfl
    | lw => rw [exec_lw] at h; cases h; exact .inr ⟨by simp [hasResult], hcommit _⟩
    | sw => rw [exec_sw] at h; cases h; exact .inl fun _ => rfl
    | lui => rw [exec_lui] at h; cases h; exact .inr ⟨by simp [hasResult], hcommit _⟩
    | auipc => rw [exec_auipc] at h; cases h; exact .inr ⟨by simp [hasResult], hcommit _⟩
    | beq => rw [exec_beq] at h; cases h; exact .inl (s.branchIf_sameRegs _ _)
    | bne => rw [exec_bne] at h; cases h; exact .inl (s.branchIf_sameRegs _ _)

/-! ## What a step leaves behind -/

/-- The DecodeRecord after a step is that of the fetched word (10_state R17). -/
theorem step_dec {s t : State} (h : step s = .next t) : t.dec = decodeRecord s.fetchWord := by
  obtain ⟨-, hexec⟩ := step_next h
  obtain ⟨hdec, -⟩ := exec_sameRest hexec
  exact hdec

/-- The class output after a step is that of the fetched word (30_encoding R48). -/
theorem step_decClass {s t : State} (h : step s = .next t) :
    t.decClass = some (classify s.fetchWord) := by
  obtain ⟨-, hexec⟩ := step_next h
  obtain ⟨-, hclass, -⟩ := exec_sameRest hexec
  exact hclass

theorem step_decodeAgrees {s t : State} (h : step s = .next t) : DecodeAgrees t := by
  have hdec := step_dec h
  have hraw : t.dec.raw = s.fetchWord := by rw [hdec, decodeRecord_raw]
  rw [DecodeAgrees, hraw]
  exact ⟨hdec, .inl (step_decClass h)⟩

/-- A step ends in HALTED exactly when the word fetched has the System opcode, which is when the halt bit
is set (40_fetch_cycle R60). -/
theorem step_haltAgrees {s t : State} (h : step s = .next t) : HaltAgrees t := by
  obtain ⟨hrun, hexec⟩ := step_next h
  have hbit : t.dec.halt = true ↔ opcodeOf s.fetchWord = 115#7 := by
    rw [step_dec h, decodeRecord_halt, decide_eq_true_iff]
  rw [HaltAgrees, hbit]
  obtain ⟨x, hi, rfl⟩ | ⟨target, hi, rfl⟩ | ⟨rd, v, hi, rfl⟩ | ⟨rs2, rs1, imm, hi, rfl⟩ |
    ⟨rd, rs1, rs2, hi, -, rfl⟩ := exec_cases hexec
  · simp [opcodeOf_of_decode_halt hi]
  · simp [hrun, opcodeOf_ne_of_decode_ne_halt hi]
  · simp [hrun, opcodeOf_ne_of_decode_ne_halt hi]
  · simp [hrun, opcodeOf_ne_of_decode_ne_halt (raw := s.fetchWord) (by simp [hi])]
  · simp [opcodeOf_ne_of_decode_ne_halt (raw := s.fetchWord) (by simp [hi])]

/-- With no fault record and no FAULTED there is nothing for the invariant to say of a fault. -/
theorem faultAgrees_of_none {t : State} (hrun : t.runState ≠ .faulted) (hrec : t.faultRecord = none) :
    FaultAgrees t := by simp [FaultAgrees, hrun, hrec]

/-- A step raises no fault but the register-index fault, whose record is that of the fetched word
(60_exceptions R80, R83). -/
theorem step_faultAgrees {s t : State} (hs : FaultAgrees s) (h : step s = .next t) :
    FaultAgrees t := by
  obtain ⟨hrun, hexec⟩ := step_next h
  obtain ⟨hiff, -⟩ := hs
  have hnone : s.faultRecord = none := by simpa [hrun] using hiff
  obtain ⟨_, -, rfl⟩ | ⟨target, -, rfl⟩ | ⟨rd, v, -, rfl⟩ | ⟨rs2, rs1, imm, -, rfl⟩ |
    ⟨rd, rs1, rs2, hi, hge, rfl⟩ := exec_cases hexec
  · exact faultAgrees_of_none (by simp) (by simp [hnone])
  · exact faultAgrees_of_none (by simp [hrun]) (by simp [hnone])
  · exact faultAgrees_of_none (by simp [hrun]) (by simp [hnone])
  · exact faultAgrees_of_none (by simp [hrun]) (by simp [hnone])
  · obtain ⟨hsel, rfl⟩ := select_of_decode_xor hi
    have hhigh := (wideRs2Of_ge_iff s.fetchWord).mp hge
    refine ⟨by simp, fun r hr => ?_⟩
    obtain rfl : _ = r := Option.some.inj hr
    simp [hsel, hhigh]

/-- Settles O33: slot 0 and the store by what an execute phase keeps, the record, class and halt bit
because a step rebuilds them, the fault record by the one fault a step raises. -/
theorem stepKeepsInvariant : Obligations.StepKeepsInvariant := by
  unfold Obligations.StepKeepsInvariant
  intro s t hs hstep
  obtain ⟨-, hexec⟩ := step_next hstep
  exact {
    zeroSlot := exec_zeroSlot hexec hs.zeroSlot
    memWf := exec_memWf hexec hs.memWf
    decodeAgrees := step_decodeAgrees hstep
    haltAgrees := step_haltAgrees hstep
    faultAgrees := step_faultAgrees hs.faultAgrees hstep }

/-- Settles O32: the frames of the execute phase, which the phases before it leave as they are. -/
theorem stepFrame : Obligations.StepFrame := by
  unfold Obligations.StepFrame
  intro s t hstep
  obtain ⟨-, hexec⟩ := step_next hstep
  have hregs : SameRegs s t ∨ hasResult (select s.fetchWord) ∧ SameRegsBut (rdOf s.fetchWord) s t :=
    exec_decode_regs (s := s.beforeExecute) hexec
  have hmem := exec_mem hexec
  obtain ⟨-, -, hbase, hcursor⟩ := exec_sameRest hexec
  refine ⟨?_, fun hno => ?_, fun hne => ?_, fun _ => ?_, hbase, hcursor⟩
  · exact hregs.elim (fun hsame r _ => hsame r) And.right
  · exact hregs.resolve_right fun hres => hno hres.left
  · exact hmem.resolve_right fun ⟨_, _, _, hi, _⟩ => hne (select_of_decode_sw hi).left
  · obtain hsame | ⟨rs2, rs1, imm, hi, hframe⟩ := hmem
    · exact fun a _ => hsame a
    · obtain ⟨-, rfl, rfl⟩ := select_of_decode_sw hi
      exact hframe

/-- Settles O39: the phases before execute overwrite the record, so the state the execute phase starts
from does not hold the old one. -/
theorem decodeRecordIsRebuilt : Obligations.DecodeRecordIsRebuilt := by
  unfold Obligations.DecodeRecordIsRebuilt
  intro s t d hstep
  obtain ⟨hrun, hexec⟩ := step_next hstep
  have hphases : State.beforeExecute { s with dec := d } = s.beforeExecute := rfl
  refine ⟨?_, step_dec hstep⟩
  rw [step_running (s := { s with dec := d }) hrun, hphases]
  exact hexec

/-- Settles O41, by the rules for the register accessors. -/
theorem zeroRegisterIsHardwired : Obligations.ZeroRegisterIsHardwired := by
  unfold Obligations.ZeroRegisterIsHardwired
  intro s rd v
  obtain ⟨hback, -, hframe⟩ := s.writeReg_spec rd v
  exact ⟨s.readReg_zero, s.writeReg_zero v, hback, hframe⟩

end Sys2Proof.Machine
end

section
/-! The store: its canonical form is determined by what it reads, and the words that a store, a placement
or a clear leaves there are those that the next load and the next fetch read (20_memory R24 to R37). -/

namespace Sys2Proof.Machine

/-! ## A canonical list is determined by its reads -/

/-- A read that differs from an unwritten cell's finds a listed cell. -/
theorem mem_of_cellsGet_ne {l : List MemCell} {a : Nat} (h : cellsGet l a ≠ unwritten) :
    (a, cellsGet l a) ∈ l := by
  induction l with
  | nil => exact absurd rfl h
  | cons c rest ih =>
    rw [cellsGet_cons] at h ⊢
    by_cases ha : a = c.1
    · subst ha; simp
    · rw [if_neg ha] at h ⊢
      exact List.mem_cons_of_mem c (ih h)

/-- In a list of rising addresses every listed cell is read at its address. -/
theorem cellsGet_of_mem {l : List MemCell} (hl : l.Pairwise (fun p q => p.1 < q.1)) {c : MemCell}
    (hc : c ∈ l) : cellsGet l c.1 = c.2 := by
  induction l with
  | nil => cases hc
  | cons d rest ih =>
    obtain ⟨hfirst, hrest⟩ := List.pairwise_cons.mp hl
    rw [cellsGet_cons]
    rcases List.mem_cons.mp hc with rfl | hc
    · exact if_pos rfl
    · rw [if_neg (Nat.ne_of_gt (hfirst c hc)), ih hrest hc]

/-- A canonical store lists exactly the cells that read as something else than an unwritten cell. -/
theorem Memory.mem_cells_iff {m : Memory} (h : m.wf) (c : MemCell) :
    c ∈ m.cells ↔ c.1 < 2 ^ 32 ∧ c.2 ≠ unwritten ∧ m.read (BitVec.ofNat 32 c.1) = c.2 := by
  obtain ⟨hrising, hlisted⟩ := h
  have hread (hlt : c.1 < 2 ^ 32) : m.read (BitVec.ofNat 32 c.1) = cellsGet m.cells c.1 := by
    rw [Memory.read, BitVec.toNat_ofNat, Nat.mod_eq_of_lt hlt]
  constructor
  · intro hc
    obtain ⟨hlt, hne⟩ := hlisted c hc
    exact ⟨hlt, hne, (hread hlt).trans (cellsGet_of_mem hrising hc)⟩
  · rintro ⟨hlt, hne, hc⟩
    rw [hread hlt] at hc
    have hmem := mem_of_cellsGet_ne (l := m.cells) (fun hzero => hne (hc.symm.trans hzero))
    rwa [hc] at hmem

theorem cells_nodup {l : List MemCell} (hl : l.Pairwise (fun p q => p.1 < q.1)) : l.Nodup :=
  hl.imp fun hlt heq => Nat.ne_of_lt hlt (congrArg Prod.fst heq)

/-- Lists of rising addresses with the same members are equal. -/
theorem cells_eq_of_mem_iff {l l' : List MemCell} (hl : l.Pairwise (fun p q => p.1 < q.1))
    (hl' : l'.Pairwise (fun p q => p.1 < q.1)) (h : ∀ c : MemCell, c ∈ l ↔ c ∈ l') : l = l' := by
  have hperm : l.Perm l' := (List.perm_ext_iff_of_nodup (cells_nodup hl) (cells_nodup hl')).mpr h
  exact hperm.eq_of_pairwise (fun _ _ _ _ hpq hqp => absurd hpq (Nat.lt_asymm hqp)) hl hl'

/-- Settles O46: two canonical stores that read alike list the same cells, in the same rising order. -/
theorem canonicalMemoryIsUnique : Obligations.CanonicalMemoryIsUnique := by
  unfold Obligations.CanonicalMemoryIsUnique
  intro m m' hm hm' hread
  have hcells : m.cells = m'.cells := cells_eq_of_mem_iff hm.1 hm'.1 fun c => by
    rw [Memory.mem_cells_iff hm, Memory.mem_cells_iff hm', hread]
  cases m
  cases m'
  exact congrArg Memory.mk hcells

/-! ## The word stored is the next one loaded or fetched -/

/-- Settles O44: the load forms the same effective address, since a store writes no register, and the
cell there holds the word stored. -/
theorem loadAfterStore : Obligations.LoadAfterStore := by
  unfold Obligations.LoadAfterStore
  intro s rs2 rs1 rd imm hm
  refine ⟨_, _, exec_sw rs2 rs1 imm s, exec_lw rd rs1 imm _, ?_⟩
  generalize ht : (s.memWrite (s.effectiveAddress rs1 imm) (s.readReg rs2)).advancePc = t
  have hregs : SameRegs s t := fun r => by simp [← ht]
  have hpc : t.pc = s.pc + 4#32 := by simp [← ht]
  have hloaded : t.memRead (t.effectiveAddress rs1 imm) = s.readReg rs2 := by
    rw [State.effectiveAddress, hregs rs1, ← ht]
    exact State.memRead_memWrite_same hm _ _
  obtain ⟨⟨hback, -, hframe⟩, hnext, -⟩ :=
    t.commitReg_spec rd (t.memRead (t.effectiveAddress rs1 imm))
  refine ⟨fun hrd => (hback hrd).trans hloaded, ?_, fun r hr => (hframe r hr).trans (hregs r)⟩
  rw [hnext, hpc, BitVec.add_assoc]
  rfl

/-- Settles O45: after the store the pc names the cell it wrote, so the next fetch reads the word
stored. -/
theorem storedWordIsFetchedNext : Obligations.StoredWordIsFetchedNext := by
  unfold Obligations.StoredWordIsFetchedNext
  intro s rs2 rs1 imm hrun hm hdec hea
  have hstep : step s = .next
      (s.beforeExecute.memWrite (s.pc + 4#32) (s.readReg rs2)).advancePc := by
    rw [step_running hrun, State.fetchWord_eq, hdec, exec_sw, State.beforeExecute_effectiveAddress, hea,
      State.beforeExecute_readReg]
  have hfetch : (s.beforeExecute.memWrite (s.pc + 4#32) (s.readReg rs2)).advancePc.fetchWord =
      s.readReg rs2 := State.memRead_memWrite_same (s := s.beforeExecute) hm _ _
  refine ⟨_, hstep, ?_⟩
  rw [step_running (by simp [hrun]), hfetch]

/-- Settles O40: the placement makes the block RUNNING with the table's word in the cell it fetches. -/
theorem placedWordRunsNext : Obligations.PlacedWordRunsNext := by
  unfold Obligations.PlacedWordRunsNext
  intro s nbits w i hm hi
  have hfetch := State.withFetchWord_fetch hm nbits w
  have hdec : decode (tableWord nbits w) = i := by
    unfold decodeTableWord at hi
    split at hi
    · exact Option.some.inj hi
    · cases hi
  refine ⟨?_, hfetch⟩
  rw [step_running (s.withFetchWord_running nbits w), hfetch, hdec]

/-- Settles O49, by the fields of a cleared state. -/
theorem memClearZeroesEveryCell : Obligations.MemClearZeroesEveryCell := by
  unfold Obligations.MemClearZeroesEveryCell
  intro s
  exact ⟨fun a => Memory.read_empty a, s.memClear_wf, s.memClear_regs, s.memClear_pc,
    s.memClear_runState, s.memClear_base⟩

end Sys2Proof.Machine
end

section
/-! What a step reads (20_memory R39, 10_state R17): two states that agree on registers, pc and run state
keep that agreement through an execute phase, if a load finds the same word in both. -/

namespace Sys2Proof.Machine

/-- The two states agree on all that a program sees without reading a cell. -/
structure SameView (s s' : State) : Prop where
  regs     : SameRegs s s'
  pc       : s'.pc = s.pc
  runState : s'.runState = s.runState

section
variable {s s' : State}

/-! ## Operands -/

theorem SameView.effectiveAddress (h : SameView s s') (rs1 : RegIdx) (imm : BitVec 12) :
    s'.effectiveAddress rs1 imm = s.effectiveAddress rs1 imm := by
  rw [State.effectiveAddress, State.effectiveAddress, h.regs rs1]

theorem SameView.jumpTarget (h : SameView s s') (off : BitVec 20) :
    s'.jumpTarget off = s.jumpTarget off := by
  rw [State.jumpTarget, State.jumpTarget, h.pc]

theorem SameView.branchTarget (h : SameView s s') (off : BitVec 12) :
    s'.branchTarget off = s.branchTarget off := by
  rw [State.branchTarget, State.branchTarget, h.pc]

/-! ## Every operation of the execute phase keeps the agreement -/

theorem SameView.haltRun (h : SameView s s') : SameView s.haltRun s'.haltRun :=
  ⟨h.regs, h.pc, rfl⟩

theorem SameView.raiseFault (h : SameView s s') (c : FaultReason) :
    SameView (s.raiseFault c) (s'.raiseFault c) := ⟨h.regs, h.pc, rfl⟩

theorem SameView.setPc (h : SameView s s') {target target' : Word} (ht : target' = target) :
    SameView (s.setPc target) (s'.setPc target') := ⟨h.regs, ht, h.runState⟩

theorem SameView.advancePc (h : SameView s s') : SameView s.advancePc s'.advancePc :=
  h.setPc (by rw [h.pc])

/-- Cells are not part of the view, so the two stores may write different ones. -/
theorem SameView.memWrite (h : SameView s s') (a a' v v' : Word) :
    SameView (s.memWrite a v) (s'.memWrite a' v') := ⟨h.regs, h.pc, h.runState⟩

theorem SameView.commitReg (h : SameView s s') (rd : RegIdx) {v v' : Word} (hv : v' = v) :
    SameView (s.commitReg rd v) (s'.commitReg rd v') := by
  subst hv
  obtain ⟨⟨hback, hzero, hframe⟩, -⟩ := s.commitReg_spec rd v'
  obtain ⟨⟨hback', hzero', hframe'⟩, -⟩ := s'.commitReg_spec rd v'
  refine ⟨fun r => ?_, by simp [h.pc], by simp [h.runState]⟩
  by_cases hr : r = rd
  · subst hr
    by_cases hz : r = 0#5
    · subst hz
      rw [hzero, hzero']
    · rw [hback hz, hback' hz]
  · rw [hframe r hr, hframe' r hr, h.regs r]

theorem SameView.branchIf (h : SameView s s') {taken taken' : Bool} (ht : taken' = taken)
    (off : BitVec 12) : SameView (s.branchIf taken off) (s'.branchIf taken' off) := by
  subst ht
  cases taken' with
  | false => exact h.advancePc
  | true => exact h.setPc (h.branchTarget off)

/-- An execute phase keeps the agreement, if an LW finds the same word in both states. -/
theorem SameView.exec_next (h : SameView s s') {i : Instr} {t : State}
    (hlw : ∀ rd rs1 imm, i = .lw rd rs1 imm →
      s'.memRead (s.effectiveAddress rs1 imm) = s.memRead (s.effectiveAddress rs1 imm))
    (hexec : exec i s = .next t) : ∃ t', exec i s' = .next t' ∧ SameView t t' := by
  cases i with
  | halt x => rw [exec_halt] at hexec; cases hexec; exact ⟨_, exec_halt x s', h.haltRun⟩
  | jal rd off =>
    rw [exec_jal] at hexec; cases hexec
    exact ⟨_, exec_jal rd off s', h.setPc (h.jumpTarget off)⟩
  | addi rd rs1 imm =>
    rw [exec_addi] at hexec; cases hexec
    exact ⟨_, exec_addi rd rs1 imm s', h.commitReg rd (by rw [h.regs])⟩
  | slli rd rs1 imm =>
    rw [exec_slli] at hexec; cases hexec
    exact ⟨_, exec_slli rd rs1 imm s', h.commitReg rd (by rw [h.regs])⟩
  | ori rd rs1 imm =>
    rw [exec_ori] at hexec; cases hexec
    exact ⟨_, exec_ori rd rs1 imm s', h.commitReg rd (by rw [h.regs])⟩
  | xor rd rs1 rs2 =>
    rcases Nat.lt_or_ge rs2.toNat 32 with hlt | hge
    · rw [exec_xor_of_lt _ _ hlt] at hexec; cases hexec
      exact ⟨_, exec_xor_of_lt rd rs1 hlt s', h.commitReg rd (by rw [h.regs, h.regs])⟩
    · rw [exec_xor_of_ge _ _ hge] at hexec; cases hexec
      exact ⟨_, exec_xor_of_ge rd rs1 hge s', h.raiseFault _⟩
  | lw rd rs1 imm =>
    rw [exec_lw] at hexec; cases hexec
    have hloaded := hlw rd rs1 imm rfl
    exact ⟨_, exec_lw rd rs1 imm s', h.commitReg rd (by rw [h.effectiveAddress, hloaded])⟩
  | sw rs2 rs1 imm =>
    rw [exec_sw] at hexec; cases hexec
    exact ⟨_, exec_sw rs2 rs1 imm s', (h.memWrite _ _ _ _).advancePc⟩
  | lui rd imm =>
    rw [exec_lui] at hexec; cases hexec
    exact ⟨_, exec_lui rd imm s', h.commitReg rd rfl⟩
  | auipc rd imm =>
    rw [exec_auipc] at hexec; cases hexec
    exact ⟨_, exec_auipc rd imm s', h.commitReg rd (by rw [h.pc])⟩
  | beq rs1 rs2 off =>
    rw [exec_beq] at hexec; cases hexec
    exact ⟨_, exec_beq rs1 rs2 off s', h.branchIf (by rw [h.regs, h.regs]) off⟩
  | bne rs1 rs2 off =>
    rw [exec_bne] at hexec; cases hexec
    exact ⟨_, exec_bne rs1 rs2 off s', h.branchIf (by rw [h.regs, h.regs]) off⟩
  | defaultNoop raw =>
    rw [exec_defaultNoop] at hexec; cases hexec
    exact ⟨_, exec_defaultNoop raw s', h.advancePc⟩

end

/-- Settles O37: both steps execute the same instruction, from states that agree on what it reads. -/
theorem stepReadsOnlyItsOperands : Obligations.StepReadsOnlyItsOperands := by
  unfold Obligations.StepReadsOnlyItsOperands
  intro s s' t hstep hrun' hregs hpc hfetch hlw
  obtain ⟨hrun, hexec⟩ := step_next hstep
  have hview : SameView s.beforeExecute s'.beforeExecute := ⟨hregs, hpc, hrun'.trans hrun.symm⟩
  obtain ⟨t', hexec', hafter⟩ := hview.exec_next hlw hexec
  refine ⟨t', ?_, hafter.regs, hafter.pc, hafter.runState⟩
  rw [step_running hrun', State.fetchWord_eq, hfetch]
  exact hexec'

end Sys2Proof.Machine
end

section
/-! The host's boot: where the image's words stand, and which mappings are refused (20_memory R33,
70_reset_and_hazards R89, R90; 92 D13). -/

namespace Sys2Proof.Machine

/-! ## Keys and the base -/

/-- What the host asks of an entry (93 U1, U13). -/
theorem entryOk_iff (e : Entry) : entryOk e = true ↔ e.1 < 2 ^ 32 ∧ e.2 < 2 ^ 32 := by
  simp [entryOk]

/-- Entries of different 32-bit keys stand in different cells. -/
theorem storeAddress_ne {k k' : Nat} (hk : k < 2 ^ 32) (hk' : k' < 2 ^ 32) (h : k ≠ k') (base : Word) :
    BitVec.ofNat 32 k - base ≠ BitVec.ofNat 32 k' - base := by
  intro heq
  have hkeys := congrArg BitVec.toNat ((BitVec.sub_left_inj base).mp heq)
  rw [BitVec.toNat_ofNat, BitVec.toNat_ofNat, Nat.mod_eq_of_lt hk, Nat.mod_eq_of_lt hk'] at hkeys
  exact h hkeys

/-- `BASE` is a key of the instruction mapping and the lowest of them (20_memory R33). -/
theorem lowestKey_isLeast {first : Entry} {rest : List Entry}
    (hok : ∀ e ∈ first :: rest, entryOk e = true) :
    (∃ e ∈ first :: rest, e.1 = (BitVec.ofNat 32 (lowestKey first.1 rest)).toNat) ∧
      ∀ e ∈ first :: rest, (BitVec.ofNat 32 (lowestKey first.1 rest)).toNat ≤ e.1 := by
  have hfirst := lowestKey_le_first first.1 rest
  obtain ⟨hkey, -⟩ := (entryOk_iff first).mp (hok first (by simp))
  rw [BitVec.toNat_ofNat, Nat.mod_eq_of_lt (Nat.lt_of_le_of_lt hfirst hkey)]
  refine ⟨?_, fun e he => ?_⟩
  · rcases lowestKey_mem first.1 rest with h | ⟨e, he, h⟩
    · exact ⟨first, by simp, h.symm⟩
    · exact ⟨e, by simp [he], h.symm⟩
  · rcases List.mem_cons.mp he with rfl | he
    · exact hfirst
    · exact lowestKey_le_mem first.1 rest e he

/-! ## Where the words of the image stand -/

/-- With no repeated key, every entry's word stands at its key minus `BASE`: no later entry overwrites
it. -/
theorem State.loadEntries_memRead_mem {s : State} (hm : s.mem.wf) {es : List Entry}
    (hkeys : ∀ e ∈ es, e.1 < 2 ^ 32) (hnodup : (es.map Prod.fst).Nodup) :
    ∀ e ∈ es, (s.loadEntries es).memRead (BitVec.ofNat 32 e.1 - s.base) = BitVec.ofNat 32 e.2 := by
  induction es generalizing s with
  | nil => simp
  | cons d rest ih =>
    rw [List.map_cons, List.nodup_cons] at hnodup
    obtain ⟨hfresh, hrest⟩ := hnodup
    have hkeysRest : ∀ e ∈ rest, e.1 < 2 ^ 32 := fun e he => hkeys e (List.mem_cons_of_mem d he)
    intro e he
    rcases List.mem_cons.mp he with rfl | he
    · have hother : ∀ x ∈ rest, BitVec.ofNat 32 e.1 - s.base ≠ BitVec.ofNat 32 x.1 - s.base :=
        fun x hx => storeAddress_ne (hkeys e (by simp)) (hkeysRest x hx)
          (fun heq => hfresh (heq ▸ List.mem_map_of_mem hx)) s.base
      exact ((s.loadEntry e).loadEntries_memRead_ne rest hother).trans (s.loadEntry_memRead_same hm e)
    · exact ih (State.loadEntry_wf hm d) hkeysRest hrest e he

/-- Every register reads 0 at the start of a run (70_reset R88). -/
theorem State.runStart_readReg (s : State) (r : RegIdx) : s.runStart.readReg r = 0#32 := by
  simp [State.readReg]

@[simp] theorem State.runStart_memRead (s : State) (a : Word) :
    s.runStart.memRead a = s.memRead a := rfl

/-- Settles O50: a completed boot is a cleared store with the entries loaded one after another, then a run
start (`State.boot_next`). -/
theorem bootPlacesImage : Obligations.BootPlacesImage := by
  unfold Obligations.BootPlacesImage
  intro s t instrs data hboot hnodup
  obtain ⟨first, rest, rfl, hinstrs, hdata, habove, rfl⟩ := State.boot_next hboot
  obtain ⟨hisKey, hlowest⟩ := lowestKey_isLeast (List.all_eq_true.mp hinstrs)
  have hkeys : ∀ e ∈ first :: rest ++ data, e.1 < 2 ^ 32 := fun e he =>
    have hok := (List.mem_append.mp he).elim (List.all_eq_true.mp hinstrs e) (List.all_eq_true.mp hdata e)
    ((entryOk_iff e).mp hok).left
  generalize hc : { s.memClear with base := BitVec.ofNat 32 (lowestKey first.1 rest) } = cleared
  have hempty : cleared.mem = { cells := [] } := by rw [← hc]; exact s.memClear_mem
  have hbase : BitVec.ofNat 32 (lowestKey first.1 rest) = cleared.base := by rw [← hc]
  obtain ⟨-, -, -, hkept⟩ := cleared.loadEntries_fields (first :: rest ++ data)
  rw [hbase] at hisKey hlowest habove
  simp only [State.runStart_base, State.runStart_memRead, hkept]
  refine ⟨hisKey, fun e he => (List.mem_append.mp he).elim (hlowest e) (habove e), ?_, fun a ha => ?_,
    State.runStart_readReg _, State.runStart_pc _, State.runStart_runState _⟩
  · exact State.loadEntries_memRead_mem (hempty ▸ Memory.empty_wf) hkeys hnodup
  · rw [cleared.loadEntries_memRead_ne _ ha, State.memRead, hempty, Memory.read_empty]

/-! ## Which mappings are refused -/

/-- `loadInstructions` accepts a mapping of well-formed entries, and `BASE` is then its lowest key. -/
theorem State.loadInstructions_next (s : State) {instrs : List Entry} (hne : instrs ≠ [])
    (hok : ∀ e ∈ instrs, entryOk e = true) :
    ∃ s1, s.loadInstructions instrs = .next s1 ∧ (∃ e ∈ instrs, e.1 = s1.base.toNat) ∧
      ∀ e ∈ instrs, s1.base.toNat ≤ e.1 := by
  cases instrs with
  | nil => exact absurd rfl hne
  | cons first rest =>
    refine ⟨_, if_pos (List.all_eq_true.mpr hok), ?_⟩
    obtain ⟨-, -, -, hkept⟩ := State.loadEntries_fields
      { s with base := BitVec.ofNat 32 (lowestKey first.1 rest) } (first :: rest)
    rw [hkept]
    exact lowestKey_isLeast hok

theorem State.loadInstructions_malformed (s : State) {instrs : List Entry} {e : Entry}
    (he : e ∈ instrs) (hbad : ¬ entryOk e = true) :
    s.loadInstructions instrs = .refused .malformedMapping := by
  cases instrs with
  | nil => cases he
  | cons first rest => exact if_neg fun hall => hbad (List.all_eq_true.mp hall e he)

theorem State.loadData_next (s : State) {data : List Entry} (hok : ∀ d ∈ data, entryOk d = true)
    (hbase : ∀ d ∈ data, s.base.toNat ≤ d.1) : s.loadData data = .next (s.loadEntries data) := by
  have habove : data.all (fun e => s.base.toNat ≤ e.1) = true :=
    List.all_eq_true.mpr fun d hd => decide_eq_true (hbase d hd)
  rw [State.loadData, if_pos (List.all_eq_true.mpr hok), if_pos habove]

theorem State.loadData_malformed (s : State) {data : List Entry} {d : Entry} (hd : d ∈ data)
    (hbad : ¬ entryOk d = true) : s.loadData data = .refused .malformedMapping :=
  if_neg fun hall => hbad (List.all_eq_true.mp hall d hd)

theorem State.loadData_below (s : State) {data : List Entry} (hok : ∀ d ∈ data, entryOk d = true)
    {d : Entry} (hd : d ∈ data) (hbelow : d.1 < s.base.toNat) :
    s.loadData data = .refused .dataBelowBase := by
  have hlow : ¬ data.all (fun e => s.base.toNat ≤ e.1) = true := fun hall =>
    Nat.not_le.mpr hbelow (of_decide_eq_true (List.all_eq_true.mp hall d hd))
  rw [State.loadData, if_pos (List.all_eq_true.mpr hok), if_neg hlow]

/-- A boot refuses what `loadInstructions` refuses. -/
theorem State.boot_of_instructions_refused {s : State} {instrs : List Entry} {r : Refusal}
    (h : s.memClear.loadInstructions instrs = .refused r) (data : List Entry) :
    s.boot instrs data = .refused r := by
  rw [State.boot, h]

/-- Past the instructions, a boot refuses what `loadData` refuses. -/
theorem State.boot_of_data_refused {s s1 : State} {instrs data : List Entry} {r : Refusal}
    (h : s.memClear.loadInstructions instrs = .next s1) (hdata : s1.loadData data = .refused r) :
    s.boot instrs data = .refused r := by
  simp only [State.boot, h, hdata]

/-- With both mappings accepted the boot ends in a run start. -/
theorem State.boot_of_loaded {s s1 s2 : State} {instrs data : List Entry}
    (h : s.memClear.loadInstructions instrs = .next s1) (hdata : s1.loadData data = .next s2) :
    s.boot instrs data = .next s2.runStart := by
  simp only [State.boot, h, hdata]

/-- Settles O51: the checks in the order the boot makes them, on the instructions and then on the data,
whose keys are compared with the lowest instruction key. -/
theorem bootCompletesOrRefuses : Obligations.BootCompletesOrRefuses := by
  unfold Obligations.BootCompletesOrRefuses
  intro s instrs data
  simp only [← entryOk_iff]
  refine ⟨?_, fun hne hbad => ?_, fun hne hok hbelow => ?_, fun hne hok habove => ?_⟩
  · rintro rfl
    exact State.boot_of_instructions_refused rfl data
  · obtain ⟨e, he, hbad⟩ := hbad
    by_cases hfound : ∃ d ∈ instrs, ¬ entryOk d = true
    · obtain ⟨d, hd, hbad⟩ := hfound
      exact State.boot_of_instructions_refused (s.memClear.loadInstructions_malformed hd hbad) data
    · have hinstrs : ∀ d ∈ instrs, entryOk d = true := fun d hd =>
        Decidable.byContradiction fun hbad => hfound ⟨d, hd, hbad⟩
      obtain ⟨s1, hload, -⟩ := s.memClear.loadInstructions_next hne hinstrs
      have hdata : e ∈ data := (List.mem_append.mp he).resolve_left fun hi => hbad (hinstrs e hi)
      exact State.boot_of_data_refused hload (s1.loadData_malformed hdata hbad)
  · obtain ⟨hinstrs, hdata⟩ := List.forall_mem_append.mp hok
    obtain ⟨s1, hload, ⟨e, he, hisKey⟩, -⟩ := s.memClear.loadInstructions_next hne hinstrs
    obtain ⟨d, hd, hbelow⟩ := hbelow
    exact State.boot_of_data_refused hload (s1.loadData_below hdata hd (hisKey ▸ hbelow e he))
  · obtain ⟨hinstrs, hdata⟩ := List.forall_mem_append.mp hok
    obtain ⟨s1, hload, -, hlowest⟩ := s.memClear.loadInstructions_next hne hinstrs
    have hbase : ∀ d ∈ data, s1.base.toNat ≤ d.1 := fun d hd =>
      have ⟨e, he, hle⟩ := habove d hd
      Nat.le_trans (hlowest e he) hle
    exact ⟨_, State.boot_of_loaded hload (s1.loadData_next hdata hbase)⟩

end Sys2Proof.Machine
end

section
/-! The decoder as the opcode map (30_encoding R49), and the encoder as its inverse on every word
(30_encoding R51). -/

namespace Sys2Proof

open Sys2Proof.Claims

/-! ## The rows of the opcode map -/

theorem Case.mem_all (c : Case) : c ∈ Case.all := by cases c <;> decide

/-- The map of the statements is the model's own mask and match columns. -/
theorem opcodeMap_eq : opcodeMap = Case.all.map fun c => (c, c.mask, c.pattern) := rfl

/-- A statement about every row of the map is one about every case. -/
theorem forall_mem_opcodeMap {P : Case × Word × Word → Prop} :
    (∀ row ∈ opcodeMap, P row) ↔ ∀ c : Case, P (c, c.mask, c.pattern) := by
  rw [opcodeMap_eq, List.forall_mem_map]
  exact ⟨fun h c => h c c.mem_all, fun h c _ => h c⟩

theorem isDefaultWord_iff (raw : Word) :
    isDefaultWord raw = true ↔ ∀ c : Case, raw &&& c.mask ≠ c.pattern := by
  simp [isDefaultWord, Case.isMatch, Case.mem_all]

/-- A row is keyed by the opcode alone, one of four, or by opcode and funct3. -/
theorem Case.key (c : Case) :
    c.mask = 0x0000007F#32 ∧ opcodeOf c.pattern ∈ [111#7, 55#7, 23#7, 115#7] ∨
      c.mask = 0x0000707F#32 := by
  cases c <;> decide

/-- No match has a bit outside its mask. -/
theorem Case.pattern_and_mask (c : Case) : c.pattern &&& c.mask = c.pattern := by cases c <;> rfl

theorem Case.select_pattern (c : Case) : select c.pattern = some c := by cases c <;> rfl

/-- A word of a row has the opcode of the row's match. -/
theorem opcodeOf_of_match {raw : Word} {c : Case} (h : raw &&& c.mask = c.pattern) :
    opcodeOf raw = opcodeOf c.pattern := by
  have hp := c.pattern_and_mask
  rcases c.key with ⟨hm, -⟩ | hm
  · rw [hm] at h hp
    exact (mask7F_eq_iff hp).mp h
  · rw [hm] at h hp
    exact ((mask707F_eq_iff hp).mp h).left

/-- A word of a row keyed by opcode and funct3 has the funct3 of the row's match. -/
theorem funct3Of_of_match {raw : Word} {c : Case} (hm : c.mask = 0x0000707F#32)
    (h : raw &&& c.mask = c.pattern) : funct3Of raw = funct3Of c.pattern := by
  have hp := c.pattern_and_mask
  rw [hm] at h hp
  exact ((mask707F_eq_iff hp).mp h).right

/-! ## Selection is the map -/

/-- Four opcodes select without looking at funct3. -/
theorem select_eq_of_opcode {raw w : Word} (ho : opcodeOf raw = opcodeOf w)
    (hkey : opcodeOf raw ∈ [111#7, 55#7, 23#7, 115#7]) : select raw = select w := by
  simp only [List.mem_cons, List.not_mem_nil, or_false] at hkey
  unfold select
  rcases hkey with h | h | h | h <;> simp [← ho, h]

theorem select_of_match {raw : Word} {c : Case} (h : raw &&& c.mask = c.pattern) :
    select raw = some c := by
  rw [← c.select_pattern]
  rcases c.key with ⟨-, hkey⟩ | hm
  · exact select_eq_of_opcode (opcodeOf_of_match h) (opcodeOf_of_match h ▸ hkey)
  · exact select_eq_of (opcodeOf_of_match h) (funct3Of_of_match hm h)

/-- A word falls to the default case exactly when it is of no row (30_encoding R49). -/
theorem select_eq_none_iff (raw : Word) :
    select raw = none ↔ ∀ c : Case, raw &&& c.mask ≠ c.pattern := by
  refine ⟨fun h c hc => ?_, fun h => ?_⟩
  · rw [select_of_match hc] at h
    cases h
  · exact Laws.EncodeSelects.defaultNoop raw ((isDefaultWord_iff raw).mpr h)

/-- A word selects a case exactly when it is of the case's row (30_encoding R49): a word of no row selects
none, and a word of another row selects that row's case. -/
theorem select_eq_some_iff (raw : Word) (c : Case) :
    select raw = some c ↔ raw &&& c.mask = c.pattern := by
  refine ⟨fun h => ?_, select_of_match⟩
  by_cases hnone : ∀ d : Case, raw &&& d.mask ≠ d.pattern
  · rw [(select_eq_none_iff raw).mpr hnone] at h
    cases h
  · obtain ⟨d, hd⟩ := Classical.not_forall_not.mp hnone
    obtain rfl : d = c := Option.some.inj ((select_of_match hd).symm.trans h)
    exact hd

/-- Settles O3: the map's rows are the model's, and two rows that matched one word would make it select
two cases. -/
theorem selectIsTheOpcodeMap : Obligations.SelectIsTheOpcodeMap := by
  unfold Obligations.SelectIsTheOpcodeMap
  simp only [forall_mem_opcodeMap]
  refine ⟨fun c raw => select_eq_some_iff raw c, select_eq_none_iff, fun c d raw hc hd => ?_,
    fun raw raw' ho hkey => ?_⟩
  · obtain rfl : c = d := Option.some.inj ((select_of_match hc).symm.trans (select_of_match hd))
    rfl
  · rcases hkey with hf | hkey
    · exact select_eq_of ho hf
    · exact select_eq_of_opcode ho (by simpa [opcodeOf] using hkey)

/-! ## Every word from its own fields

With the word's own opcode and funct3, the encoder puts the extracted fields back where they were read
from (30_encoding R41 to R46): bit i of the encoded word is the bit of a field that was read from bit i
of the word. -/

section
variable {raw : Word} {opc : BitVec 7} {fn : BitVec 3}

theorem encodeI_fields (ho : opcodeOf raw = opc) (hf : funct3Of raw = fn) :
    encodeI opc fn (rdOf raw) (rs1Of raw) (iFieldOf raw) = raw := by
  subst ho hf
  refine BitVec.eq_of_getLsbD_eq fun i hi => ?_
  rw [encodeI_bit]
  simp only [opcodeOf, rdOf, funct3Of, rs1Of, iFieldOf, BitVec.getLsbD_extractLsb']
  grind

theorem encodeU_fields (ho : opcodeOf raw = opc) :
    encodeU opc (rdOf raw) (uFieldOf raw) = raw := by
  subst ho
  refine BitVec.eq_of_getLsbD_eq fun i hi => ?_
  rw [encodeU_bit]
  simp only [opcodeOf, rdOf, uFieldOf, BitVec.getLsbD_extractLsb']
  grind

theorem encodeJ_fields (ho : opcodeOf raw = opc) :
    encodeJ opc (rdOf raw) (jFieldOf raw) = raw := by
  subst ho
  refine BitVec.eq_of_getLsbD_eq fun i hi => ?_
  rw [encodeJ_bit _ _ _ _ hi]
  simp only [opcodeOf, rdOf, jFieldOf, BitVec.getLsbD_append, BitVec.getLsbD_extractLsb']
  grind

theorem encodeS_fields (ho : opcodeOf raw = opc) (hf : funct3Of raw = fn) :
    encodeS opc fn (rs2Of raw) (rs1Of raw) (sFieldOf raw) = raw := by
  subst ho hf
  refine BitVec.eq_of_getLsbD_eq fun i hi => ?_
  rw [encodeS_bit _ _ _ _ _ _ hi]
  simp only [opcodeOf, sFieldOf, funct3Of, rs1Of, rs2Of, BitVec.getLsbD_append,
    BitVec.getLsbD_extractLsb']
  grind

theorem encodeB_fields (ho : opcodeOf raw = opc) (hf : funct3Of raw = fn) :
    encodeB opc fn (rs1Of raw) (rs2Of raw) (bFieldOf raw) = raw := by
  subst ho hf
  refine BitVec.eq_of_getLsbD_eq fun i hi => ?_
  rw [encodeB_bit _ _ _ _ _ _ hi]
  simp only [opcodeOf, bFieldOf, funct3Of, rs1Of, rs2Of, BitVec.getLsbD_append,
    BitVec.getLsbD_extractLsb']
  grind

theorem encode_halt_fields (ho : opcodeOf raw = 115#7) : encode (.halt (systemRestOf raw)) = raw := by
  refine BitVec.eq_of_getLsbD_eq fun i hi => ?_
  rw [encodeSystem_bit, ← ho]
  simp only [opcodeOf, systemRestOf, BitVec.getLsbD_extractLsb']
  grind

end

/-- A word of a case is the encoder's word of the fields the decoder extracts for that case; a word of no
case is kept whole. -/
theorem encode_decode (raw : Word) : encode (decode raw) = raw := by
  unfold decode
  cases hsel : select raw with
  | none => rfl
  | some c =>
    have hrow := (select_eq_some_iff raw c).mp hsel
    have ho := opcodeOf_of_match hrow
    have hf := funct3Of_of_match (c := c) (h := hrow)
    cases c with
    | halt => exact encode_halt_fields ho
    | jal => exact encodeJ_fields ho
    | addi => exact encodeI_fields ho (hf rfl)
    | slli => exact encodeI_fields ho (hf rfl)
    | ori => exact encodeI_fields ho (hf rfl)
    | xor => exact encodeI_fields ho (hf rfl)
    | lw => exact encodeI_fields ho (hf rfl)
    | sw => exact encodeS_fields ho (hf rfl)
    | lui => exact encodeU_fields ho
    | auipc => exact encodeU_fields ho
    | beq => exact encodeB_fields ho (hf rfl)
    | bne => exact encodeB_fields ho (hf rfl)

/-- Only a word of no row decodes to a default no-op. -/
theorem decode_wellFormed (raw : Word) : (decode raw).wellFormed = true := by
  unfold decode
  cases hsel : select raw with
  | none => exact (isDefaultWord_iff raw).mpr ((select_eq_none_iff raw).mp hsel)
  | some c => cases c <;> rfl

/-- Settles O2: decoding drops no bit of a word. -/
theorem encodeOfDecode : Obligations.EncodeOfDecode := by
  unfold Obligations.EncodeOfDecode
  exact fun raw => ⟨decode_wellFormed raw, encode_decode raw⟩

end Sys2Proof
end

section
/-! The DecodeRecord of each kind of word (30_encoding R42, R43, R47). -/

namespace Sys2Proof

open Sys2Proof.Claims Sys2Proof.Machine

/-! ## The record of a format -/

section
variable {raw : Word}

theorem decodeRecord_system (h : formatOf (opcodeOf raw) = .system) :
    decodeRecord raw = { bareRecord raw with halt := true } := by
  rw [decodeRecord, h]

theorem decodeRecord_uType (h : formatOf (opcodeOf raw) = .uType) :
    decodeRecord raw = { bareRecord raw with imm := zext20 (uFieldOf raw), rd := rdOf raw } := by
  rw [decodeRecord, h]

theorem decodeRecord_iType (h : formatOf (opcodeOf raw) = .iType) :
    decodeRecord raw = { bareRecord raw with
      funct3 := funct3Of raw, rs1 := rs1Of raw, rd := rdOf raw, imm := sext12 (iFieldOf raw) } := by
  rw [decodeRecord, h]

theorem decodeRecord_unlisted (h : formatOf (opcodeOf raw) = .unlisted) :
    decodeRecord raw = bareRecord raw := by
  rw [decodeRecord, h]

end

/-- An opcode of no row of 30_encoding R40's table has no format. -/
theorem formatOf_unlisted {opc : BitVec 7}
    (h : opc ∉ [115#7, 51#7, 55#7, 23#7, 3#7, 19#7, 111#7, 35#7, 99#7]) :
    formatOf opc = .unlisted := by
  simp only [List.mem_cons, List.not_mem_nil, or_false, not_or] at h
  simp [formatOf, h]

/-! ## Immediates -/

theorem sext12_toInt (f : BitVec 12) : (sext12 f).toInt = f.toInt :=
  BitVec.toInt_signExtend_of_le (by decide)

/-- The signed value of a 12-bit field (00_scope R9). -/
theorem toInt_field12 (f : BitVec 12) : -2048 ≤ f.toInt ∧ f.toInt ≤ 2047 := by
  have hlow := f.le_toInt
  have hhigh := f.toInt_le
  omega

theorem zext20_toNat (f : BitVec 20) : (zext20 f).toNat = f.toNat :=
  BitVec.toNat_setWidth_of_le (by decide)

/-- Above twelve zeros the sign extension of a 20-bit field is not seen (30_encoding R43). -/
theorem sext20_shiftLeft (f : BitVec 20) : sext20 f <<< 12 = upperImm f := by
  refine BitVec.eq_of_getLsbD_eq fun i hi => ?_
  have hfield : i - 12 < 20 := by omega
  simp [upperImm, sext20, zext20, BitVec.getLsbD_signExtend, hfield]

/-! ## The statements -/

/-- Settles O10: the bare record, with the halt bit for opcode 115. -/
theorem recordOfSystemAndUnlisted : Obligations.RecordOfSystemAndUnlisted := by
  unfold Obligations.RecordOfSystemAndUnlisted
  refine ⟨fun raw h => ?_, fun raw h => ?_⟩
  · have hformat : formatOf (op raw) = .system := by rw [h]; rfl
    exact decodeRecord_system hformat
  · exact decodeRecord_unlisted (formatOf_unlisted h)

/-- Settles O4: sign extension keeps the field's signed value. -/
theorem recordOfIType : Obligations.RecordOfIType := by
  unfold Obligations.RecordOfIType
  intro raw h
  have hformat : formatOf (op raw) = .iType := by
    rcases h with h | h <;> (rw [h]; rfl)
  have hrecord := decodeRecord_iType hformat
  have himm : (decodeRecord raw).imm.toInt = (iF raw).toInt := by
    rw [hrecord]; exact sext12_toInt (iFieldOf raw)
  obtain ⟨hlow, hhigh⟩ := toInt_field12 (iF raw)
  rw [himm]
  refine ⟨hrecord, rfl, hlow, hhigh, fun hfield => ?_, fun hfield => ?_⟩
  · rw [hfield]; rfl
  · rw [hfield]; rfl

/-- Settles O6: the immediate is the field itself, and shifted it is the operand of LUI and AUIPC. -/
theorem recordOfUType : Obligations.RecordOfUType := by
  unfold Obligations.RecordOfUType
  intro raw h
  have hformat : formatOf (op raw) = .uType := by
    rcases h with h | h <;> (rw [h]; rfl)
  have hrecord := decodeRecord_uType hformat
  have himm : (decodeRecord raw).imm = zext20 (uF raw) := by rw [hrecord]; rfl
  have hupper : upperImm (uF raw) = uF raw ++ 0#12 := upperImm_eq (uF raw)
  rw [himm]
  refine ⟨hrecord, ?_, hupper, (sext20_shiftLeft (uF raw)).trans hupper⟩
  rw [zext20_toNat]
  have := (uF raw).isLt
  omega

end Sys2Proof
end

section
/-! Outcomes and outputs of a step: never a refusal, a fault for a wide XOR alone, and a class output
without effect (30_encoding R48, R51; 60_exceptions R80). -/

namespace Sys2Proof.Machine

/-! ## Refusals and faults -/

/-- Settles O35: a RUNNING step completes, and the other states answer their own fault. -/
theorem noStepRefused : Obligations.NoStepRefused := by
  unfold Obligations.NoStepRefused
  intro s r hstep
  cases hs : s.runState with
  | running =>
    obtain ⟨t, -, hnext⟩ := step_total_of_running hs
    rw [hnext] at hstep; cases hstep
  | halted => rw [step_halted hs] at hstep; cases hstep
  | faulted => rw [step_faulted hs] at hstep; cases hstep

/-- A step on any other word than a wide XOR does not fault (60_exceptions R80). -/
theorem step_notFaulted {s t : State} (hword : FaultFreeWord (s.memRead s.pc))
    (hstep : step s = .next t) : NotFaulted t := by
  obtain ⟨hrun, hexec⟩ := step_next hstep
  obtain ⟨_, -, rfl⟩ | ⟨target, -, rfl⟩ | ⟨rd, v, -, rfl⟩ | ⟨rs2, rs1, imm, -, rfl⟩ |
    ⟨rd, rs1, rs2, hi, hge, rfl⟩ := exec_cases hexec
  · simp [NotFaulted]
  · simp [NotFaulted, hrun]
  · simp [NotFaulted, hrun]
  · simp [NotFaulted, hrun]
  · obtain ⟨hsel, rfl⟩ := select_of_decode_xor hi
    exact absurd (hword hsel) ((wideRs2Of_ge_iff s.fetchWord).mp hge)

/-- Settles O31, by induction on the length of the run. -/
theorem runWithoutWideXorNeverFaults : Obligations.RunWithoutWideXorNeverFaults := by
  unfold Obligations.RunWithoutWideXorNeverFaults
  intro k
  induction k with
  | zero =>
    intro s t hs _ hrun
    rw [core_run_zero] at hrun
    cases hrun
    exact hs
  | succ k ih =>
    intro s t _ hwords hrun
    obtain ⟨s', hstep, hrest⟩ := core_run_next hrun
    have hs' : NotFaulted s' := step_notFaulted (hwords 0 s k.succ_pos (core_run_zero s)) hstep
    exact ih s' t hs' (fun j u hj hu =>
      hwords (j + 1) u (Nat.succ_lt_succ hj) ((core_run_succ hstep j).trans hu)) hrest

/-! ## The class output -/

theorem classify_eq_impl_iff (raw : Word) (c : Case) :
    classify raw = .impl c ↔ select raw = some c := by
  unfold classify
  cases select raw <;> simp

theorem classify_eq_unimpl_iff (raw : Word) : classify raw = .unimpl ↔ select raw = none := by
  unfold classify
  cases select raw <;> simp

/-- The state with another class output. -/
def State.withClass (s : State) (k : Option DecodeClass) : State := { s with decClass := k }

theorem State.withClass_commitReg (s : State) (k : Option DecodeClass) (rd : RegIdx) (v : Word) :
    (s.withClass k).commitReg rd v = (s.commitReg rd v).withClass k := by
  unfold State.commitReg State.writeReg
  split <;> rfl

theorem State.withClass_branchIf (s : State) (k : Option DecodeClass) (taken : Bool)
    (off : BitVec 12) : (s.withClass k).branchIf taken off = (s.branchIf taken off).withClass k := by
  cases taken <;> rfl

/-- Every execute phase carries the class output along and does not look at it. -/
theorem exec_withClass {i : Instr} {s t : State} (h : exec i s = .next t) (k : Option DecodeClass) :
    exec i (s.withClass k) = .next (t.withClass k) := by
  have hcommit (rd v) : (.next ((s.withClass k).commitReg rd v) : Host.Outcome State Fault Refusal) =
      .next ((s.commitReg rd v).withClass k) := congrArg _ (s.withClass_commitReg k rd v)
  cases i with
  | halt x => rw [exec_halt] at h; cases h; exact exec_halt x _
  | jal rd off => rw [exec_jal] at h; cases h; exact exec_jal rd off _
  | addi rd rs1 imm => rw [exec_addi] at h; cases h; exact (exec_addi rd rs1 imm _).trans (hcommit _ _)
  | slli rd rs1 imm => rw [exec_slli] at h; cases h; exact (exec_slli rd rs1 imm _).trans (hcommit _ _)
  | ori rd rs1 imm => rw [exec_ori] at h; cases h; exact (exec_ori rd rs1 imm _).trans (hcommit _ _)
  | xor rd rs1 rs2 =>
    rcases Nat.lt_or_ge rs2.toNat 32 with hlt | hge
    · rw [exec_xor_of_lt _ _ hlt] at h; cases h
      exact (exec_xor_of_lt rd rs1 hlt _).trans (hcommit _ _)
    · rw [exec_xor_of_ge _ _ hge] at h; cases h; exact exec_xor_of_ge rd rs1 hge _
  | lw rd rs1 imm => rw [exec_lw] at h; cases h; exact (exec_lw rd rs1 imm _).trans (hcommit _ _)
  | sw rs2 rs1 imm => rw [exec_sw] at h; cases h; exact exec_sw rs2 rs1 imm _
  | lui rd imm => rw [exec_lui] at h; cases h; exact (exec_lui rd imm _).trans (hcommit _ _)
  | auipc rd imm => rw [exec_auipc] at h; cases h; exact (exec_auipc rd imm _).trans (hcommit _ _)
  | beq rs1 rs2 off =>
    rw [exec_beq] at h; cases h
    exact (exec_beq rs1 rs2 off _).trans (congrArg _ (s.withClass_branchIf k _ off))
  | bne rs1 rs2 off =>
    rw [exec_bne] at h; cases h
    exact (exec_bne rs1 rs2 off _).trans (congrArg _ (s.withClass_branchIf k _ off))
  | defaultNoop raw => rw [exec_defaultNoop] at h; cases h; exact exec_defaultNoop raw _

/-- Settles O38: the execute phase commutes with a change of the class output, and a step leaves there the
class of the fetched word. -/
theorem classOutputHasNoEffect : Obligations.ClassOutputHasNoEffect := by
  unfold Obligations.ClassOutputHasNoEffect
  refine ⟨fun i s t k h => exec_withClass h k, fun s t hstep => ?_⟩
  rw [step_decClass hstep]
  simp only [Option.some.injEq]
  exact ⟨classify_eq_impl_iff s.fetchWord, classify_eq_unimpl_iff s.fetchWord⟩

end Sys2Proof.Machine
end

section
/-! The assembler's view: written offsets are byte offsets (30_encoding R53), and `li` and `la` leave their
constant in the register they name (R54). -/

namespace Sys2Proof.Machine

/-! ## Fields of numbers in range (00_scope R9) -/

theorem sext12_ofInt {v : Int} (hlow : -2048 ≤ v) (hhigh : v ≤ 2047) :
    sext12 (BitVec.ofInt 12 v) = BitVec.ofInt 32 v := by
  rw [sext12, BitVec.signExtend, BitVec.toInt_ofInt_eq_self] <;> omega

theorem sext20_ofInt {v : Int} (hlow : -524288 ≤ v) (hhigh : v ≤ 524287) :
    sext20 (BitVec.ofInt 20 v) = BitVec.ofInt 32 v := by
  rw [sext20, BitVec.signExtend, BitVec.toInt_ofInt_eq_self] <;> omega

/-- Doubling undoes the halving of an even offset. -/
theorem ofInt_half_mul_two {v : Int} (heven : v % 2 = 0) :
    BitVec.ofInt 32 (v / 2) * 2#32 = BitVec.ofInt 32 v := by
  have hdouble : v / 2 * 2 = v := by omega
  rw [show (2#32 : Word) = BitVec.ofInt 32 2 from rfl, ← BitVec.ofInt_mul, hdouble]

section
variable {v : Int} (heven : v % 2 = 0)
include heven

/-! ## JAL, BEQ and BNE as assembled -/

theorem jumpOffset_ofInt_half (hlow : -1048576 ≤ v) (hhigh : v ≤ 1048574) :
    jumpOffset (BitVec.ofInt 20 (v / 2)) = BitVec.ofInt 32 v := by
  have hshift (x : Word) : x <<< 1 = x * 2#32 := BitVec.shiftLeft_eq_mul_twoPow x 1
  rw [jumpOffset, hshift, sext20_ofInt (by omega) (by omega), ofInt_half_mul_two heven]

theorem branchOffset_ofInt_half (hlow : -4096 ≤ v) (hhigh : v ≤ 4094) :
    branchOffset (BitVec.ofInt 12 (v / 2)) = BitVec.ofInt 32 v := by
  rw [branchOffset, sext12_ofInt (by omega) (by omega), ofInt_half_mul_two heven]

theorem assemble_jal (rd : RegIdx) (hlow : -1048576 ≤ v) (hhigh : v ≤ 1048574) :
    assemble? (.jal rd v) = some (.jal rd (BitVec.ofInt 20 (v / 2))) := by
  simp [assemble?, asmJumpOff?, heven, hlow, hhigh]

theorem asmBranchOff_eq (hlow : -4096 ≤ v) (hhigh : v ≤ 4094) :
    asmBranchOff? v = some (BitVec.ofInt 12 (v / 2)) :=
  if_pos ⟨heven, hlow, hhigh⟩

end

theorem assemble_beq (rs1 rs2 : RegIdx) {v : Int} {off : BitVec 12} (h : asmBranchOff? v = some off) :
    assemble? (.beq rs1 rs2 v) = some (.beq rs1 rs2 off) := by
  rw [assemble?, h, Option.map_some]

theorem assemble_bne (rs1 rs2 : RegIdx) {v : Int} {off : BitVec 12} (h : asmBranchOff? v = some off) :
    assemble? (.bne rs1 rs2 v) = some (.bne rs1 rs2 off) := by
  rw [assemble?, h, Option.map_some]

theorem State.branchIf_taken_pc (s : State) {taken : Bool} (h : taken = true) (off : BitVec 12) :
    (s.branchIf taken off).pc = s.pc + branchOffset off := by
  rw [State.branchIf_pc, if_pos h, State.branchTarget, aluAdd]

/-- Settles O53: the field is half the operand, and the target doubles it again. -/
theorem writtenOffsetIsTheByteOffset : Obligations.WrittenOffsetIsTheByteOffset := by
  unfold Obligations.WrittenOffsetIsTheByteOffset
  refine ⟨fun rd v s heven hlow hhigh => ?_, fun rs1 rs2 v s heven hlow hhigh => ?_⟩
  · refine ⟨_, _, assemble_jal heven rd hlow hhigh, exec_jal _ _ s, ?_⟩
    rw [State.setPc_pc, State.jumpTarget, aluAdd, jumpOffset_ofInt_half heven hlow hhigh]
  · have hfield := asmBranchOff_eq heven hlow hhigh
    have hoffset := branchOffset_ofInt_half heven hlow hhigh
    refine ⟨fun heq => ?_, fun hne => ?_⟩
    · refine ⟨_, _, assemble_beq rs1 rs2 hfield, exec_beq _ _ _ s, ?_⟩
      rw [s.branchIf_taken_pc (by simp [heq]), hoffset]
    · refine ⟨_, _, assemble_bne rs1 rs2 hfield, exec_bne _ _ _ s, ?_⟩
      rw [s.branchIf_taken_pc (by simp [hne]), hoffset]

/-! ## The two halves of a constant (30_encoding R54) -/

/-- Sign extension keeps the field's own bits. -/
theorem sext12_low (f : BitVec 12) : (sext12 f).extractLsb' 0 12 = f :=
  extractLsb'_eq_of_bits fun i hi => by
    rw [Nat.zero_add, sext12, BitVec.getLsbD_signExtend, if_pos hi, decide_eq_true (by omega : i < 32),
      Bool.true_and]

/-- A constant from -2048 to 2047 is the sign extension of its low half. -/
theorem sext12_liLow {imm : Word} (hlow : -2048 ≤ imm.toInt) (hhigh : imm.toInt ≤ 2047) :
    sext12 (liLow imm) = imm := by
  have hfield : liLow imm = BitVec.ofInt 12 imm.toInt := by
    rw [← sext12_low (BitVec.ofInt 12 imm.toInt), sext12_ofInt hlow hhigh, BitVec.ofInt_toInt, liLow]
  rw [hfield, sext12_ofInt hlow hhigh, BitVec.ofInt_toInt]

/-- A word whose low 12 bits are 0 is its upper field above twelve zeros. -/
theorem upperImm_uFieldOf {d : Word} (h : d.extractLsb' 0 12 = 0#12) : upperImm (uFieldOf d) = d := by
  refine BitVec.eq_of_getLsbD_eq fun i hi => ?_
  by_cases hc : i < 12
  · have hbit := congrArg (·.getLsbD i) h
    simp only [BitVec.getLsbD_extractLsb', hc, decide_true, Bool.true_and, Nat.zero_add,
      BitVec.getLsbD_zero] at hbit
    simp [upperImm, hc, hbit]
  · have hfield : i - 12 < 20 := by omega
    simp [upperImm, zext20, uFieldOf, hc, hi, hfield, show 12 + (i - 12) = i by omega]

/-- Taking the sign-extended low half away clears the low 12 bits. -/
theorem sub_sext12_liLow_low (imm : Word) : (imm - sext12 (liLow imm)).extractLsb' 0 12 = 0#12 := by
  have hlow := congrArg BitVec.toNat (sext12_low (liLow imm))
  simp only [liLow, BitVec.extractLsb'_toNat, Nat.shiftRight_zero] at hlow
  refine BitVec.eq_of_toNat_eq ?_
  simp only [BitVec.extractLsb'_toNat, Nat.shiftRight_zero, BitVec.toNat_sub, BitVec.toNat_ofNat,
    liLow]
  omega

/-- The upper half makes up for the sign extension of the low half. -/
theorem upperImm_liHigh (imm : Word) : upperImm (liHigh imm) = imm - sext12 (liLow imm) :=
  upperImm_uFieldOf (sub_sext12_liLow_low imm)

theorem upperImm_add_sext12 (imm : Word) : upperImm (liHigh imm) + sext12 (liLow imm) = imm := by
  rw [upperImm_liHigh, BitVec.sub_add_cancel]

/-! ## `li` and `la` -/

/-- An instruction that leaves `v` in rd, then `addi rd, rd, lo`: the sum is in rd, and nothing else has
changed but the pc. -/
theorem exec_addi_after_commitReg {rd : RegIdx} (hrd : rd ≠ 0#5) (s : State) (v : Word)
    (lo : BitVec 12) :
    ∃ u, exec (.addi rd rd lo) (s.commitReg rd v) = .next u ∧
      u.readReg rd = v + sext12 lo ∧ SameRegsBut rd s u ∧ u.pc = s.pc + 8#32 := by
  obtain ⟨⟨hfirst, -, hframe⟩, hpc, -⟩ := s.commitReg_spec rd v
  obtain ⟨⟨hsecond, -, hframe'⟩, hpc', -⟩ :=
    (s.commitReg rd v).commitReg_spec rd ((s.commitReg rd v).readReg rd + sext12 lo)
  refine ⟨_, exec_addi rd rd lo _, ?_, fun r hr => (hframe' r hr).trans (hframe r hr), ?_⟩
  · rw [hsecond hrd, hfirst hrd]
  · rw [hpc', hpc, BitVec.add_assoc]; rfl

theorem expand_li_short (rd : RegIdx) {imm : Word} (h : -2048 ≤ imm.toInt ∧ imm.toInt ≤ 2047) :
    Pseudo.expand (.li rd imm) = [.addi rd 0#5 (liLow imm)] := if_pos h

theorem expand_li_long (rd : RegIdx) {imm : Word} (h : ¬ (-2048 ≤ imm.toInt ∧ imm.toInt ≤ 2047)) :
    Pseudo.expand (.li rd imm) = [.lui rd (liHigh imm), .addi rd rd (liLow imm)] := if_neg h

/-- Settles O54: a short constant is the sign extension of its low half, and any other the sum of its
halves. -/
theorem liLoadsConstant : Obligations.LiLoadsConstant := by
  unfold Obligations.LiLoadsConstant
  intro rd imm s hrd
  refine ⟨fun hlow hhigh => ?_, fun hlong => ?_⟩
  · have hvalue : s.readReg 0#5 + sext12 (liLow imm) = imm := by
      rw [State.readReg_zero, BitVec.zero_add, sext12_liLow hlow hhigh]
    refine ⟨_, s.commitReg rd imm, expand_li_short rd ⟨hlow, hhigh⟩, ?_, s.commitReg_spec rd imm⟩
    rw [exec_addi, hvalue]
  · obtain ⟨u, hexec, hvalue, hframe, hpc⟩ :=
      exec_addi_after_commitReg hrd s (upperImm (liHigh imm)) (liLow imm)
    rw [upperImm_add_sext12] at hvalue
    exact ⟨_, _, _, u, expand_li_long rd hlong, exec_lui rd _ s, hexec, hvalue, hframe, hpc⟩

/-- Settles O55: the halves of the distance to the symbol, added to the instruction's own address. -/
theorem laLoadsAddress : Obligations.LaLoadsAddress := by
  unfold Obligations.LaLoadsAddress
  intro rd sym s hrd
  obtain ⟨u, hexec, hvalue, hframe, hpc⟩ :=
    exec_addi_after_commitReg hrd s (upperImm (liHigh (sym - s.pc)) + s.pc) (liLow (sym - s.pc))
  have haddress : u.readReg rd = sym := by
    calc u.readReg rd
        = upperImm (liHigh (sym - s.pc)) + s.pc + sext12 (liLow (sym - s.pc)) := hvalue
      _ = upperImm (liHigh (sym - s.pc)) + sext12 (liLow (sym - s.pc)) + s.pc :=
          by rw [BitVec.add_assoc, BitVec.add_comm s.pc, ← BitVec.add_assoc]
      _ = sym := by rw [upperImm_add_sext12, BitVec.sub_add_cancel]
  exact ⟨_, _, _, u, rfl, exec_auipc rd _ s, hexec, haddress, hframe, hpc⟩

end Sys2Proof.Machine
end

section
/-! The fetch cycle: which instruction a step runs, where it leaves the pc and the run state, and which
states have no step (40_fetch_cycle R55 to R60). -/

namespace Sys2Proof.Machine

/-- A word that selects no case decodes to the default no-op that holds it (R58). -/
theorem decode_of_select_none {raw : Word} (h : select raw = none) : decode raw = .defaultNoop raw := by
  rw [decode, h]

/-! ## The pc and run state an operation leaves -/

section
variable {s : State} (hrun : s.runState = .running)
include hrun

theorem State.advancePc_nextPc :
    s.advancePc.pc = s.pc + 4#32 ∧ s.advancePc.runState = .running :=
  ⟨s.advancePc_pc, hrun⟩

theorem State.commitReg_nextPc (rd : RegIdx) (v : Word) :
    (s.commitReg rd v).pc = s.pc + 4#32 ∧ (s.commitReg rd v).runState = .running :=
  ⟨s.commitReg_pc rd v, (s.commitReg_runState rd v).trans hrun⟩

/-- A branch on a comparison: the pc-relative target when it holds, the next word otherwise (R59). -/
theorem State.branchIf_nextPc {taken : Bool} {P : Prop} [Decidable P] (h : taken = true ↔ P)
    (off : BitVec 12) :
    (s.branchIf taken off).pc =
        (if P then s.pc + off.signExtend 32 * 2#32 else s.pc + 4#32) ∧
      (s.branchIf taken off).runState = .running := by
  refine ⟨?_, (s.branchIf_runState taken off).trans hrun⟩
  rw [s.branchIf_pc taken off]
  by_cases hP : P
  · exact (if_pos (h.mpr hP)).trans (if_pos hP).symm
  · exact (if_neg fun htaken => hP (h.mp htaken)).trans (if_neg hP).symm

end

/-! ## The statements -/

/-- Settles O27: one line of the table per case the fetched word selects, each by the equation of its
execute phase, which starts at the pc, the registers and the run state the step starts at. -/
theorem nextPcTable : Obligations.NextPcTable := by
  unfold Obligations.NextPcTable
  intro s hrun
  obtain ⟨t, hexec, hstep⟩ := step_total_of_running hrun
  refine ⟨t, hstep, ?_⟩
  have hrun' : s.beforeExecute.runState = .running := hrun
  rw [State.fetchWord_eq] at hexec
  unfold decode at hexec
  dsimp only
  cases hsel : select (s.memRead s.pc) with
  | none =>
    rw [hsel, exec_defaultNoop] at hexec; cases hexec
    exact State.advancePc_nextPc hrun'
  | some c =>
    rw [hsel] at hexec
    cases c with
    | halt => rw [exec_halt] at hexec; cases hexec; exact ⟨rfl, rfl⟩
    | jal => rw [exec_jal] at hexec; cases hexec; exact ⟨rfl, hrun⟩
    | addi => rw [exec_addi] at hexec; cases hexec; exact State.commitReg_nextPc hrun' _ _
    | slli => rw [exec_slli] at hexec; cases hexec; exact State.commitReg_nextPc hrun' _ _
    | ori => rw [exec_ori] at hexec; cases hexec; exact State.commitReg_nextPc hrun' _ _
    | xor =>
      rcases Nat.lt_or_ge (wideRs2Of (s.memRead s.pc)).toNat 32 with hlt | hge
      · rw [exec_xor_of_lt _ _ hlt] at hexec; cases hexec
        exact (if_neg (Nat.not_le.mpr hlt)).mpr (State.commitReg_nextPc hrun' _ _)
      · rw [exec_xor_of_ge _ _ hge] at hexec; cases hexec
        exact (if_pos hge).mpr ⟨rfl, rfl⟩
    | lw => rw [exec_lw] at hexec; cases hexec; exact State.commitReg_nextPc hrun' _ _
    | sw => rw [exec_sw] at hexec; cases hexec; exact State.advancePc_nextPc hrun'
    | lui => rw [exec_lui] at hexec; cases hexec; exact State.commitReg_nextPc hrun' _ _
    | auipc => rw [exec_auipc] at hexec; cases hexec; exact State.commitReg_nextPc hrun' _ _
    | beq =>
      rw [exec_beq] at hexec; cases hexec
      exact State.branchIf_nextPc hrun' beq_iff_eq _
    | bne =>
      rw [exec_bne] at hexec; cases hexec
      exact State.branchIf_nextPc hrun' bne_iff_ne _

/-- Settles O24: a word of no row selects no case, and the default no-op only advances the pc. -/
theorem defaultOnlyAdvances : Obligations.DefaultOnlyAdvances := by
  unfold Obligations.DefaultOnlyAdvances
  simp only [forall_mem_opcodeMap]
  refine ⟨fun raw hrow => ?_, fun raw s => ⟨_, exec_defaultNoop raw s, s.advancePc_spec⟩⟩
  have hsel : select raw = none := (select_eq_none_iff raw).mpr hrow
  exact ⟨decode_of_select_none hsel, (classify_eq_unimpl_iff raw).mpr hsel⟩

/-- Settles O29: a step leaves HALTED with the halt bit (`step_haltAgrees`), and the record is that of the
fetched word, whose halt bit opcode 115 alone sets. -/
theorem haltedOnlyByOpcode115 : Obligations.HaltedOnlyByOpcode115 := by
  unfold Obligations.HaltedOnlyByOpcode115
  intro s t hstep
  calc t.runState = .halted
      ↔ t.dec.halt = true := step_haltAgrees hstep
    _ ↔ opcodeOf s.fetchWord = 115#7 := by rw [step_dec hstep, decodeRecord_halt, decide_eq_true_iff]

/-- Settles O25: the phases before execute change the DecodeRecord and the class output alone. -/
theorem stepRunsDecoded : Obligations.StepRunsDecoded := by
  unfold Obligations.StepRunsDecoded
  intro s i hrun hdec _
  rw [step_running hrun, s.beforeExecute_eq, State.fetchWord_eq, hdec]

/-- Settles O26: the terminal states answer their own fault, and every execute phase completes. -/
theorem terminalStatesHaveNoStep : Obligations.TerminalStatesHaveNoStep := by
  unfold Obligations.TerminalStatesHaveNoStep
  refine fun s => ⟨step_halted, step_faulted, fun hrun => ?_⟩
  obtain ⟨t, -, hstep⟩ := step_total_of_running hrun
  exact ⟨t, hstep⟩

end Sys2Proof.Machine
end

section
/-! The ALU: its operations as arithmetic modulo 2^32 (41_alu R61), and the instructions with a register
result that it computes from an immediate, ADDI, SLLI, ORI, LUI and AUIPC (41_alu R62 to R64, R66, R67). -/

namespace Sys2Proof.Machine

open Sys2Proof.Claims

/-! ## Which case a word with a row's key bits selects -/

/-- A word with the opcode and funct3 of a row's match selects that row's case (30_encoding R49). -/
theorem select_of_opcode_funct3 {raw : Word} {c : Case} (ho : opcodeOf raw = opcodeOf c.pattern)
    (hf : funct3Of raw = funct3Of c.pattern) : select raw = some c :=
  (select_eq_of ho hf).trans c.select_pattern

/-- For a row keyed by the opcode alone, the opcode is enough (30_encoding R49). -/
theorem select_of_opcode {raw : Word} {c : Case} (ho : opcodeOf raw = opcodeOf c.pattern)
    (hkey : opcodeOf c.pattern ∈ [111#7, 55#7, 23#7, 115#7]) : select raw = some c :=
  (select_eq_of_opcode ho (ho ▸ hkey)).trans c.select_pattern

/-! ## The shift amount -/

/-- The low five bits of a 12-bit field as a number. -/
theorem toNat_low5 (imm : BitVec 12) : (imm.extractLsb' 0 5).toNat = imm.toNat % 32 := by
  rw [BitVec.extractLsb'_toNat, Nat.shiftRight_zero]

/-- The low five bits of the I-type field are `raw[24:20]` (41_alu R63). -/
theorem iFieldOf_low5 (raw : Word) : (iFieldOf raw).extractLsb' 0 5 = rs2Of raw :=
  BitVec.eq_of_getLsbD_eq fun i hi => by
    simp [iFieldOf, rs2Of, hi, show i < 12 by omega]

/-! ## The statements -/

/-- Settles O43, by the arithmetic of bit patterns: a shift is a product with a power of two. -/
theorem aluIsModulo : Obligations.AluIsModulo := by
  unfold Obligations.AluIsModulo
  intro a b n
  have hsll : (aluSll a n).toNat = a.toNat * 2 ^ n.toNat % 2 ^ 32 := by
    rw [aluSll, BitVec.toNat_shiftLeft, Nat.shiftLeft_eq]
  exact ⟨BitVec.toNat_add a b, hsll, BitVec.toNat_or a b, BitVec.toNat_xor a b, beq_iff_eq⟩

/-- Settles O14: ADDI commits the sum. -/
theorem addiAddsImmediate : Obligations.AddiAddsImmediate := by
  unfold Obligations.AddiAddsImmediate
  refine ⟨fun raw ho hf => ?_, fun rd rs1 imm s => ⟨_, exec_addi rd rs1 imm s, s.commitReg_spec rd _⟩⟩
  have hsel : select raw = some .addi := select_of_opcode_funct3 ho hf
  rw [decode, hsel]
  rfl

/-- Settles O15: SLLI commits the shift by the field's low five bits, which are `raw[24:20]`. -/
theorem slliShiftsLeft : Obligations.SlliShiftsLeft := by
  unfold Obligations.SlliShiftsLeft
  refine ⟨fun raw ho hf => ⟨?_, ?_⟩, fun rd rs1 imm s => ⟨_, exec_slli rd rs1 imm s, ?_⟩⟩
  · have hsel : select raw = some .slli := select_of_opcode_funct3 ho hf
    rw [decode, hsel]
    rfl
  · calc (iF raw).toNat % 32
        = ((iFieldOf raw).extractLsb' 0 5).toNat := (toNat_low5 (iFieldOf raw)).symm
      _ = (rs2Of raw).toNat := by rw [iFieldOf_low5]
  · rw [toNat_low5]
    exact s.commitReg_spec rd _

/-- Settles O16: ORI commits the bitwise or. -/
theorem oriOrsImmediate : Obligations.OriOrsImmediate := by
  unfold Obligations.OriOrsImmediate
  refine ⟨fun raw ho hf => ?_, fun rd rs1 imm s => ⟨_, exec_ori rd rs1 imm s, s.commitReg_spec rd _⟩⟩
  have hsel : select raw = some .ori := select_of_opcode_funct3 ho hf
  rw [decode, hsel]
  rfl

/-- Settles O18: LUI commits the field above twelve zeros. -/
theorem luiLoadsUpper : Obligations.LuiLoadsUpper := by
  unfold Obligations.LuiLoadsUpper
  refine ⟨fun raw ho => ?_, fun rd imm s => ⟨_, exec_lui rd imm s, ?_⟩⟩
  · have hsel : select raw = some .lui := select_of_opcode ho (by decide)
    rw [decode, hsel]
    rfl
  · rw [upperImm_eq]
    exact s.commitReg_spec rd _

/-- Settles O19: AUIPC commits the sum with the pc of the state it executes in, which is the instruction's
own address. -/
theorem auipcAddsPc : Obligations.AuipcAddsPc := by
  unfold Obligations.AuipcAddsPc
  refine ⟨fun raw ho => ?_, fun rd imm s => ⟨_, exec_auipc rd imm s, ?_⟩⟩
  · have hsel : select raw = some .auipc := select_of_opcode ho (by decide)
    rw [decode, hsel]
    rfl
  · rw [upperImm_eq]
    exact s.commitReg_spec rd _

end Sys2Proof.Machine
end

section
/-! The load: the address it forms, and the cell it brings into a register (42_load_store R68, R69). -/

namespace Sys2Proof.Machine

open Sys2Proof.Claims

/-- The effective address is the sign-extended displacement plus the base, modulo 2^32 (42_load_store
R68). -/
theorem State.effectiveAddress_eq (s : State) (rs1 : RegIdx) (imm : BitVec 12) :
    s.effectiveAddress rs1 imm = imm.signExtend 32 + s.readReg rs1 := rfl

/-- Settles O20: LW commits the cell at the effective address, which it forms and reads in the state before
the register is written. -/
theorem lwLoadsCell : Obligations.LwLoadsCell := by
  unfold Obligations.LwLoadsCell
  refine ⟨fun raw ho hf => ?_, fun rd rs1 imm s => ⟨_, exec_lw rd rs1 imm s, ?_⟩⟩
  · have hsel : select raw = some .lw := select_of_opcode_funct3 ho hf
    rw [decode, hsel]
    rfl
  · rw [s.effectiveAddress_eq]
    exact s.commitReg_spec rd _

end Sys2Proof.Machine
end

section
/-! Control transfer: the jump that leaves no link (43_control R71), the places a step can leave the pc,
and the parity that all of them keep (R71, R72). -/

namespace Sys2Proof.Machine

open Sys2Proof.Claims

/-! ## The jump -/

/-- JAL's target is the instruction's own address plus twice the sign-extended field, modulo 2^32 (R71). -/
theorem State.jumpTarget_eq (s : State) (off : BitVec 20) :
    s.jumpTarget off = s.pc + (off.signExtend 32) <<< 1 := rfl

/-- Settles O13: JAL sets the pc, and that is all it does. -/
theorem jalJumpsWithoutLink : Obligations.JalJumpsWithoutLink := by
  unfold Obligations.JalJumpsWithoutLink
  refine ⟨fun raw ho => ?_, fun rd off s => ⟨_, exec_jal rd off s, ?_⟩⟩
  · have hsel : select raw = some .jal := select_of_opcode ho (by decide)
    rw [decode, hsel]
    rfl
  · rw [s.jumpTarget_eq]
    exact s.setPc_spec _

/-! ## Where a step leaves the pc -/

/-- A step leaves the pc where it was (HALT and the fault), at the next word, at a jump target or at a
branch target: the table of 40_fetch_cycle R59, read for the pc alone. -/
theorem step_pc_cases {s t : State} (h : step s = .next t) :
    t.pc = s.pc ∨ t.pc = s.pc + 4#32 ∨
      (∃ off : BitVec 20, t.pc = s.pc + (off.signExtend 32) <<< 1) ∨
      ∃ off : BitVec 12, t.pc = s.pc + off.signExtend 32 * 2#32 := by
  obtain ⟨hrun, -⟩ := step_next h
  obtain ⟨t', hstep, hrow⟩ := nextPcTable s hrun
  obtain rfl : t = t' := Host.Outcome.next.inj (h.symm.trans hstep)
  dsimp only at hrow
  cases hsel : select (s.memRead s.pc) with
  | none =>
    rw [hsel] at hrow
    exact .inr (.inl hrow.left)
  | some c =>
    rw [hsel] at hrow
    cases c with
    | halt => exact .inl hrow.left
    | jal => exact .inr (.inr (.inl ⟨_, hrow.left⟩))
    | beq | bne =>
      obtain ⟨hpc, -⟩ := hrow
      split at hpc
      · exact .inr (.inr (.inr ⟨_, hpc⟩))
      · exact .inr (.inl hpc)
    | xor =>
      dsimp only at hrow
      split at hrow
      · exact .inl hrow.left
      · exact .inr (.inl hrow.left)
    | addi | slli | ori | lw | sw | lui | auipc => exact .inr (.inl hrow.left)

/-! ## Parity -/

/-- An even displacement keeps the parity of an address, also where the sum wraps modulo 2^32. -/
theorem toNat_add_double_mod_two (a d : Word) : (a + d * 2#32).toNat % 2 = a.toNat % 2 := by
  rw [BitVec.toNat_add, BitVec.toNat_mul, BitVec.toNat_ofNat]
  omega

/-- Settles O36: each place a step can leave the pc is an even displacement away. -/
theorem stepKeepsPcParity : Obligations.StepKeepsPcParity := by
  unfold Obligations.StepKeepsPcParity
  intro s t hstep
  obtain hpc | hpc | ⟨off, hpc⟩ | ⟨off, hpc⟩ := step_pc_cases hstep
  · rw [hpc]
  · rw [hpc]
    exact toNat_add_double_mod_two s.pc 2#32
  · rw [hpc, BitVec.shiftLeft_eq_mul_twoPow]
    exact toNat_add_double_mod_two s.pc _
  · rw [hpc]
    exact toNat_add_double_mod_two s.pc _

end Sys2Proof.Machine
end

section
/-! The System opcode: HALT (44_system R75). -/

namespace Sys2Proof.Machine

open Sys2Proof.Claims

/-- Settles O12: opcode 115 alone selects HALT, whose don't-care is the rest of the word, and HALT does
nothing but end the run (`exec_halt`). -/
theorem haltSetsHalted : Obligations.HaltSetsHalted := by
  unfold Obligations.HaltSetsHalted
  refine ⟨fun raw ho => ?_, exec_halt⟩
  have hsel : select raw = some .halt := (select_eq_halt_iff raw).mpr ho
  rw [decode, hsel]
  rfl

end Sys2Proof.Machine
end

section
/-! Reset (70_reset R88, R91): what a run start leaves in the state, the invariant it establishes over any
store in canonical form, and `State.reset` as one run start among these. -/

namespace Sys2Proof.Machine

open Sys2Proof.Claims

/-- The cleared record is the decode of the zero word, whose opcode no format lists (30_encoding R47,
R88). -/
theorem decodeRecord_zero : decodeRecord 0#32 = DecodeRecord.cleared :=
  decodeRecord_unlisted (by decide)

/-- A run start establishes the invariant whatever state it finds, FAULTED and HALTED included: all that the
invariant speaks of is set anew, but the store (R88). -/
theorem State.runStart_stateInv {s : State} (hm : s.mem.wf) : StateInv s.runStart where
  zeroSlot := by simp [ZeroSlot]
  memWf := by rw [State.runStart_mem]; exact hm
  decodeAgrees := ⟨decodeRecord_zero.symm, .inr ⟨s.runStart_decClass, s.runStart_dec⟩⟩
  haltAgrees := by simp [HaltAgrees, DecodeRecord.cleared]
  faultAgrees := faultAgrees_of_none (by simp) s.runStart_faultRecord

/-- Settles O48: the memory clear sets the store and the write cursor, the offset reset `BASE`, and the run
start every other field. -/
theorem resetFromAnyState : Obligations.ResetFromAnyState := by
  unfold Obligations.ResetFromAnyState
  exact fun _ => rfl

/-- Settles O34: reset is a run start over a cleared store. -/
theorem resetHasInvariant : Obligations.ResetHasInvariant := by
  unfold Obligations.ResetHasInvariant
  rw [← resetFromAnyState State.reset]
  exact State.runStart_stateInv State.reset.memClear_wf

/-- Settles O47, by the fields of a started state. -/
theorem runStartValues : Obligations.RunStartValues := by
  unfold Obligations.RunStartValues
  intro s
  exact ⟨s.runStart_readReg, s.runStart_pc, s.runStart_runState, s.runStart_dec,
    s.runStart_faultRecord, s.runStart_mem, s.runStart_base, s.resetOffset_base⟩

end Sys2Proof.Machine
end

section
/-! The decoder as the inverse of the encoder on every well-formed instruction (30_encoding R40 to R50), and
both round trips as one equivalence. -/

namespace Sys2Proof

open Sys2Proof.Claims

/-! ## The fields that a format scatters over its word -/

theorem jFieldOf_encodeJ (opc : BitVec 7) (rd : RegIdx) (off : BitVec 20) :
    jFieldOf (encodeJ opc rd off) = off := by
  refine BitVec.eq_of_getLsbD_eq fun i hi => ?_
  simp only [jFieldOf, BitVec.getLsbD_append, BitVec.getLsbD_extractLsb']
  grind [encodeJ_bit]

theorem sFieldOf_encodeS (opc : BitVec 7) (fn : BitVec 3) (rs2 rs1 : RegIdx) (imm : BitVec 12) :
    sFieldOf (encodeS opc fn rs2 rs1 imm) = imm := by
  refine BitVec.eq_of_getLsbD_eq fun i hi => ?_
  simp only [sFieldOf, BitVec.getLsbD_append, BitVec.getLsbD_extractLsb']
  grind [encodeS_bit]

theorem bFieldOf_encodeB (opc : BitVec 7) (fn : BitVec 3) (rs1 rs2 : RegIdx) (off : BitVec 12) :
    bFieldOf (encodeB opc fn rs1 rs2 off) = off := by
  refine BitVec.eq_of_getLsbD_eq fun i hi => ?_
  simp only [bFieldOf, BitVec.getLsbD_append, BitVec.getLsbD_extractLsb']
  grind [encodeB_bit]

theorem wideRs2Of_encodeR (opc : BitVec 7) (fn : BitVec 3) (rd rs1 : RegIdx) (rs2 : WideIdx) :
    wideRs2Of (encodeR opc fn rd rs1 rs2) = rs2 :=
  iFieldOf_encodeI opc fn rd rs1 rs2

/-! ## The round trip -/

/-- The encoder's word selects the instruction's own case, and each field extraction of that case reads
back the operand that the layout placed there. -/
theorem decode_encode {i : Instr} (h : i.wellFormed = true) : decode (encode i) = i := by
  unfold decode
  cases i with
  | halt x =>
    rw [Laws.EncodeSelects.halt x h]
    exact congrArg Instr.halt (systemRestOf_encode_halt x)
  | jal rd off =>
    rw [Laws.EncodeSelects.jal rd off h]
    simp only [Instr.case?, encode, rdOf_encodeJ, jFieldOf_encodeJ]
  | addi rd rs1 imm =>
    rw [Laws.EncodeSelects.addi rd rs1 imm h]
    simp only [Instr.case?, encode, rdOf_encodeI, rs1Of_encodeI, iFieldOf_encodeI]
  | slli rd rs1 imm =>
    rw [Laws.EncodeSelects.slli rd rs1 imm h]
    simp only [Instr.case?, encode, rdOf_encodeI, rs1Of_encodeI, iFieldOf_encodeI]
  | ori rd rs1 imm =>
    rw [Laws.EncodeSelects.ori rd rs1 imm h]
    simp only [Instr.case?, encode, rdOf_encodeI, rs1Of_encodeI, iFieldOf_encodeI]
  | xor rd rs1 rs2 =>
    rw [Laws.EncodeSelects.xor rd rs1 rs2 h]
    simp only [Instr.case?, encode, wideRs2Of_encodeR]
    simp only [encodeR_eq_encodeI, rdOf_encodeI, rs1Of_encodeI]
  | lw rd rs1 imm =>
    rw [Laws.EncodeSelects.lw rd rs1 imm h]
    simp only [Instr.case?, encode, rdOf_encodeI, rs1Of_encodeI, iFieldOf_encodeI]
  | sw rs2 rs1 imm =>
    rw [Laws.EncodeSelects.sw rs2 rs1 imm h]
    simp only [Instr.case?, encode, rs2Of_encodeS, rs1Of_encodeS, sFieldOf_encodeS]
  | lui rd imm =>
    rw [Laws.EncodeSelects.lui rd imm h]
    simp only [Instr.case?, encode, rdOf_encodeU, uFieldOf_encodeU]
  | auipc rd imm =>
    rw [Laws.EncodeSelects.auipc rd imm h]
    simp only [Instr.case?, encode, rdOf_encodeU, uFieldOf_encodeU]
  | beq rs1 rs2 off =>
    rw [Laws.EncodeSelects.beq rs1 rs2 off h]
    simp only [Instr.case?, encode, rs1Of_encodeB, rs2Of_encodeB, bFieldOf_encodeB]
  | bne rs1 rs2 off =>
    rw [Laws.EncodeSelects.bne rs1 rs2 off h]
    simp only [Instr.case?, encode, rs1Of_encodeB, rs2Of_encodeB, bFieldOf_encodeB]
  | defaultNoop raw =>
    rw [Laws.EncodeSelects.defaultNoop raw h]
    rfl

/-- Settles O1: encoding drops no operand of a well-formed instruction. -/
theorem decodeOfEncode : Obligations.DecodeOfEncode := by
  unfold Obligations.DecodeOfEncode
  exact fun _ h => decode_encode h

/-- A word means an instruction exactly when the instruction is well-formed and the word is its encoding: the
two round trips in one. -/
theorem decode_eq_iff {raw : Word} {i : Instr} :
    decode raw = i ↔ i.wellFormed = true ∧ encode i = raw := by
  constructor
  · rintro rfl
    exact ⟨decode_wellFormed raw, encode_decode raw⟩
  · rintro ⟨hwf, rfl⟩
    exact decode_encode hwf

/-- Settles O11: each word is the encoding of the instruction it is listed for, laid out from the operands. -/
theorem sampleWordsDecode : Obligations.SampleWordsDecode := by
  unfold Obligations.SampleWordsDecode
  simp only [decode_eq_iff]
  decide

end Sys2Proof
end

section
/-! The DecodeRecord of the register, jump, store and branch formats (30_encoding R41, R44 to R46). -/

namespace Sys2Proof

open Sys2Proof.Claims Sys2Proof.Machine

/-! ## The record of a format -/

section
variable {raw : Word}

theorem decodeRecord_rType (h : formatOf (opcodeOf raw) = .rType) :
    decodeRecord raw = { bareRecord raw with
      funct3 := funct3Of raw, rs1 := rs1Of raw, rs2 := wideRs2Of raw, rd := rdOf raw } := by
  rw [decodeRecord, h]

theorem decodeRecord_jType (h : formatOf (opcodeOf raw) = .jType) :
    decodeRecord raw = { bareRecord raw with imm := jumpOffset (jFieldOf raw) } := by
  rw [decodeRecord, h]; rfl

theorem decodeRecord_sType (h : formatOf (opcodeOf raw) = .sType) :
    decodeRecord raw = { bareRecord raw with
      funct3 := funct3Of raw, rs1 := rs1Of raw, rs2 := (rs2Of raw).setWidth 12,
      imm := sext12 (sFieldOf raw) } := by
  rw [decodeRecord, h]

theorem decodeRecord_bType (h : formatOf (opcodeOf raw) = .bType) :
    decodeRecord raw = { bareRecord raw with
      funct3 := funct3Of raw, rs1 := rs1Of raw, rs2 := (rs2Of raw).setWidth 12,
      imm := sext12 (bFieldOf raw) } := by
  rw [decodeRecord, h]

end

/-! ## The wide rs2 field -/

/-- A 12-bit rs2 field whose upper seven bits are 0 is the 5-bit field `raw[24:20]` (30_encoding R41). -/
theorem wideRs2Of_eq_of_high_zero {raw : Word} (h : raw.extractLsb' 25 7 = 0#7) :
    wideRs2Of raw = (rs2Of raw).setWidth 12 := by
  have hhigh := congrArg BitVec.toNat h
  refine BitVec.eq_of_toNat_eq ?_
  simp only [BitVec.extractLsb'_toNat, BitVec.toNat_ofNat, Nat.shiftRight_eq_div_pow] at hhigh
  simp only [wideRs2Of, rs2Of, BitVec.toNat_setWidth, BitVec.extractLsb'_toNat,
    Nat.shiftRight_eq_div_pow]
  omega

/-! ## Doubled offsets -/

/-- Doubling a word whose double fits in 32 bits doubles its signed value. -/
theorem toInt_mul_two {x : Word} (hlow : -2 ^ 30 ≤ x.toInt) (hhigh : x.toInt < 2 ^ 30) :
    (x * 2#32).toInt = 2 * x.toInt := by
  rw [BitVec.toInt_mul, show (2#32).toInt = 2 from rfl, Int.bmod_eq_of_le_mul_two, Int.mul_comm]
  · omega
  · omega

/-- The signed value of a 20-bit field (00_scope R9). -/
theorem toInt_field20 (f : BitVec 20) : -524288 ≤ f.toInt ∧ f.toInt ≤ 524287 := by
  have hlow := f.le_toInt
  have hhigh := f.toInt_le
  omega

/-- JAL's byte offset is twice its field's signed value (30_encoding R44). -/
theorem jumpOffset_toInt (f : BitVec 20) : (jumpOffset f).toInt = 2 * f.toInt := by
  have hsext : (sext20 f).toInt = f.toInt := BitVec.toInt_signExtend_of_le (by decide)
  have hshift : sext20 f <<< 1 = sext20 f * 2#32 := BitVec.shiftLeft_eq_mul_twoPow _ 1
  obtain ⟨hlow, hhigh⟩ := toInt_field20 f
  rw [jumpOffset, hshift, toInt_mul_two (by omega) (by omega), hsext]

/-- A branch's byte offset is twice its field's signed value (30_encoding R46). -/
theorem branchOffset_toInt (f : BitVec 12) : (branchOffset f).toInt = 2 * f.toInt := by
  have hsext := sext12_toInt f
  obtain ⟨hlow, hhigh⟩ := toInt_field12 f
  rw [branchOffset, toInt_mul_two (by omega) (by omega), hsext]

/-! ## The statements -/

/-- Settles O5: rs2 is the 12-bit field, whose upper seven bits decide whether it names a register. -/
theorem recordOfRType : Obligations.RecordOfRType := by
  unfold Obligations.RecordOfRType
  intro raw h
  have hformat : formatOf (op raw) = .rType := by rw [h]; rfl
  have hrecord := decodeRecord_rType hformat
  have hrs2 : (decodeRecord raw).rs2 = wideRs2Of raw := by rw [hrecord]
  rw [hrs2]
  exact ⟨hrecord, wideRs2Of_ge_iff raw, wideRs2Of_eq_of_high_zero⟩

/-- Settles O7: the immediate is JAL's byte offset. -/
theorem recordOfJType : Obligations.RecordOfJType := by
  unfold Obligations.RecordOfJType
  intro raw h
  have hformat : formatOf (op raw) = .jType := by rw [h]; rfl
  have hrecord := decodeRecord_jType hformat
  have himm : (decodeRecord raw).imm.toInt = 2 * (jF raw).toInt := by
    rw [hrecord]; exact jumpOffset_toInt (jFieldOf raw)
  obtain ⟨hlow, hhigh⟩ := toInt_field20 (jF raw)
  refine ⟨hrecord, himm, ?_, ?_⟩ <;> omega

/-- Settles O9: the immediate is the undoubled field, and doubled it is the branch's byte offset. -/
theorem recordOfBType : Obligations.RecordOfBType := by
  unfold Obligations.RecordOfBType
  intro raw h
  have hformat : formatOf (op raw) = .bType := by rw [h]; rfl
  have hrecord := decodeRecord_bType hformat
  have himm : ((decodeRecord raw).imm * 2#32).toInt = 2 * (bF raw).toInt := by
    rw [hrecord]; exact branchOffset_toInt (bFieldOf raw)
  obtain ⟨hlow, hhigh⟩ := toInt_field12 (bF raw)
  refine ⟨hrecord, himm, ?_, ?_⟩ <;> omega

/-- Settles O8: the record of the store format. -/
theorem recordOfSType : Obligations.RecordOfSType := by
  unfold Obligations.RecordOfSType
  intro raw h
  have hformat : formatOf (op raw) = .sType := by rw [h]; rfl
  exact decodeRecord_sType hformat

end Sys2Proof
end

section
/-! XOR and the one spec fault (41_alu R65, 60_exceptions R80): the 12-bit index, the two ends of an XOR, and
the steps that leave FAULTED. -/

namespace Sys2Proof.Machine

open Sys2Proof.Claims

/-! ## The 12-bit index -/

theorem State.readWide_of_lt (s : State) {i : WideIdx} (h : i.toNat < 32) :
    s.readWide i = some (s.readReg (i.setWidth 5)) := if_pos h

theorem State.readWide_of_ge (s : State) {i : WideIdx} (h : 32 ≤ i.toNat) : s.readWide i = none :=
  if_neg (Nat.not_lt.mpr h)

/-- A 5-bit index names the same register through 12 bits (10_state R16). -/
theorem State.readWide_setWidth (s : State) (r : RegIdx) :
    s.readWide (r.setWidth 12) = some (s.readReg r) := by
  have hval : (r.setWidth 12).toNat = r.toNat := BitVec.toNat_setWidth_of_le (by decide)
  have hback : (r.setWidth 12).setWidth 5 = r := BitVec.eq_of_toNat_eq (by simp)
  rw [s.readWide_of_lt (hval ▸ r.isLt), hback]

/-- Settles O42: a register's index reads that register, and above them there is none. -/
theorem wideIndexHasNoRegister : Obligations.WideIndexHasNoRegister := by
  unfold Obligations.WideIndexHasNoRegister
  refine fun s i => ⟨?_, s.readWide_of_ge⟩
  rintro r rfl
  exact s.readWide_setWidth r

/-! ## Which words are an XOR -/

/-- XOR is opcode 51 with funct3 4 (30_encoding R49). -/
theorem select_eq_xor_iff (raw : Word) :
    select raw = some .xor ↔ opcodeOf raw = 51#7 ∧ funct3Of raw = 4#3 :=
  (select_eq_some_iff raw .xor).trans (mask707F_eq_iff (Case.pattern_and_mask .xor))

theorem decode_of_select_xor {raw : Word} (h : select raw = some .xor) :
    decode raw = .xor (rdOf raw) (rs1Of raw) (wideRs2Of raw) := by
  rw [decode, h]

/-- Settles O17: below 32 XOR commits the exclusive or; from 32 on it raises the fault, which sets the run
state and the fault record alone. -/
theorem xorOrFaults : Obligations.XorOrFaults := by
  unfold Obligations.XorOrFaults
  refine ⟨fun raw ho hf => ⟨?_, wideRs2Of_ge_iff raw⟩, fun rd rs1 rs2 s hlt => ?_,
    fun rd rs1 rs2 s hge => ?_⟩
  · exact decode_of_select_xor ((select_eq_xor_iff raw).mpr ⟨ho, hf⟩)
  · exact ⟨_, exec_xor_of_lt rd rs1 hlt s, s.commitReg_spec rd _⟩
  · exact exec_xor_of_ge rd rs1 hge s

/-! ## The steps that fault -/

/-- A step that leaves FAULTED fetched an XOR whose rs2 names no register, and all it did after decoding is
raise the fault (60_exceptions R80). -/
theorem step_faulted_inv {s t : State} (h : step s = .next t) (hf : t.runState = .faulted) :
    (select s.fetchWord = some .xor ∧ 32 ≤ (wideRs2Of s.fetchWord).toNat) ∧
      t = s.beforeExecute.raiseFault .regIndexOutOfRange := by
  obtain ⟨hrun, hexec⟩ := step_next h
  obtain ⟨_, -, rfl⟩ | ⟨target, -, rfl⟩ | ⟨rd, v, -, rfl⟩ | ⟨rs2, rs1, imm, -, rfl⟩ |
    ⟨rd, rs1, rs2, hi, hge, rfl⟩ := exec_cases hexec
  · simp at hf
  · simp [hrun] at hf
  · simp [hrun] at hf
  · simp [hrun] at hf
  · obtain ⟨hsel, rfl⟩ := select_of_decode_xor hi
    exact ⟨⟨hsel, hge⟩, rfl⟩

/-- Every step on such an XOR leaves FAULTED (60_exceptions R80). -/
theorem step_faulted_of_wide_xor {s t : State} (h : step s = .next t)
    (hsel : select s.fetchWord = some .xor) (hge : 32 ≤ (wideRs2Of s.fetchWord).toNat) :
    t.runState = .faulted := by
  obtain ⟨-, hexec⟩ := step_next h
  rw [decode_of_select_xor hsel, exec_xor_of_ge _ _ hge] at hexec
  cases hexec
  exact State.raiseFault_runState _ _

theorem step_faulted_iff {s t : State} (h : step s = .next t) :
    t.runState = .faulted ↔
      opcodeOf s.fetchWord = 51#7 ∧ funct3Of s.fetchWord = 4#3 ∧ 32 ≤ (wideRs2Of s.fetchWord).toNat := by
  rw [← and_assoc, ← select_eq_xor_iff]
  refine ⟨fun hf => ?_, fun ⟨hsel, hge⟩ => step_faulted_of_wide_xor h hsel hge⟩
  obtain ⟨hwide, -⟩ := step_faulted_inv h hf
  exact hwide

/-! ## The pass signal -/

/-- In HALTED the pass output says whether a0 holds 1 (44_system R77). -/
theorem State.passOutput_of_halted {s : State} (h : s.runState = .halted) :
    s.passOutput = some (decide (s.readReg 10#5 = 1#32)) := by
  rw [State.passOutput, h]; rfl

theorem State.passOutput_of_not_halted {s : State} (h : s.runState ≠ .halted) :
    s.passOutput = none := by
  unfold State.passOutput
  cases hrun : s.runState with
  | running => rfl
  | halted => exact absurd hrun h
  | faulted => rfl

/-- Settles O52, by the run state. -/
theorem passSignal : Obligations.PassSignal := by
  unfold Obligations.PassSignal
  exact fun _ => ⟨State.passOutput_of_halted, State.passOutput_of_not_halted⟩

/-- Settles O30: a faulting step does nothing but decode and raise the fault, and FAULTED has neither a step
nor a pass value. -/
theorem faultedOnlyByWideXor : Obligations.FaultedOnlyByWideXor := by
  unfold Obligations.FaultedOnlyByWideXor
  intro s t hstep
  refine ⟨step_faulted_iff hstep, fun hf => ?_⟩
  have hterminal : ∀ u, step t ≠ .next u := by simp [step_faulted hf]
  have hnopass : t.passOutput = none := State.passOutput_of_not_halted (by simp [hf])
  obtain ⟨-, rfl⟩ := step_faulted_inv hstep hf
  refine ⟨fun _ => rfl, fun _ => rfl, rfl, ?_, hterminal, hnopass⟩
  simp [State.fetchWord_eq]

end Sys2Proof.Machine
end

section
/-! The store (42_load_store R68, R70) and the conditional branches (43_control R72 to R74). -/

namespace Sys2Proof.Machine

open Sys2Proof.Claims

/-! ## The store -/

/-- Settles O21: SW writes the one cell at its effective address and advances the pc. -/
theorem swStoresCell : Obligations.SwStoresCell := by
  unfold Obligations.SwStoresCell
  refine ⟨fun raw ho hf => ?_, fun rs2 rs1 imm s =>
    ⟨s.effectiveAddress_eq rs1 imm, _, exec_sw rs2 rs1 imm s, fun hm => ?_, fun a ha => ?_, ?_⟩⟩
  · have hsel : select raw = some .sw := select_of_opcode_funct3 ho hf
    rw [decode, hsel]
    rfl
  · exact State.memRead_memWrite_same hm _ _
  · exact s.memRead_memWrite_ne _ ha
  · exact ⟨rfl, fun _ => rfl, ⟨rfl, rfl⟩, ⟨rfl, rfl, rfl, rfl⟩⟩

/-! ## The branches -/

/-- The target of a taken branch is the instruction's own address plus twice the sign-extended field,
modulo 2^32 (43_control R72). -/
theorem State.branchTarget_eq (s : State) (off : BitVec 12) :
    s.branchTarget off = s.pc + off.signExtend 32 * 2#32 := rfl

/-- All that a branch on the outcome of a test does: it writes the pc (43_control R72). -/
theorem State.branchIf_writesPc (s : State) {taken : Bool} {P : Prop} [Decidable P]
    (h : taken = true ↔ P) (off : BitVec 12) :
    WritesPc (if P then s.pc + off.signExtend 32 * 2#32 else s.pc + 4#32) s (s.branchIf taken off) := by
  have hspec := s.branchIf_spec taken off
  simp only [h, s.branchTarget_eq] at hspec
  exact hspec

/-- Settles O22: BEQ branches on the equality of two registers. -/
theorem beqBranchesIfEqual : Obligations.BeqBranchesIfEqual := by
  unfold Obligations.BeqBranchesIfEqual
  refine ⟨fun raw ho hf => ?_, fun rs1 rs2 off s =>
    ⟨_, exec_beq rs1 rs2 off s, s.branchIf_writesPc beq_iff_eq off⟩⟩
  have hsel : select raw = some .beq := select_of_opcode_funct3 ho hf
  rw [decode, hsel]
  rfl

/-- Settles O23: BNE branches on the inequality of two registers. -/
theorem bneBranchesIfNotEqual : Obligations.BneBranchesIfNotEqual := by
  unfold Obligations.BneBranchesIfNotEqual
  refine ⟨fun raw ho hf => ?_, fun rs1 rs2 off s =>
    ⟨_, exec_bne rs1 rs2 off s, s.branchIf_writesPc bne_iff_ne off⟩⟩
  have hsel : select raw = some .bne := select_of_opcode_funct3 ho hf
  rw [decode, hsel]
  rfl

end Sys2Proof.Machine
end
